-- ==== Sys2Proof/Word.lean ====
section
/-! DEFINITION. The word types of the CMAC engine (spec/00_scope.md R7 to R11). -/

namespace Sys2Proof

/-- A byte: 8 bits, bit 7 the most significant (R11). -/
abbrev Byte := BitVec 8

/-- A host port word, and an address held in a register of at most 32 bits (R9, R10). -/
abbrev Word := BitVec 32

/-- A block, subkey, accumulator or tag: 128 bits, byte `i` in bits `127-8i` to `120-8i` (R7, R11). -/
abbrev Block := BitVec 128

/-- A capability handle: 16 bits, 0 the null capability (R9). -/
abbrev Handle := BitVec 16

/-- `ZERO16`, the block of sixteen 0x00 bytes (R13). -/
def zero16 : Block := 0

end Sys2Proof
end

