-- ==== Sys2Proof/Syntax.lean ====
section
/-! DEFINITION. The instructions (one constructor per row of the opcode table), the codes they are encoded in, and
what the host and the platform can do (spec/30_encoding.md, spec/44_host_commands.md R190, R196). -/

namespace Sys2Proof

/-- The thirteen operations of spec/opcode_table.json. Operand widths are the field widths of 30_encoding.md R91, R96,
so a term of this type is always encodable. -/
inductive Instr
  /-- `SETUP cap` (44_host_commands.md R192): `cap` is `IMM16`. -/
  | setup (cap : Handle)
  /-- `DIGEST len` (44_host_commands.md R193): `len` is `IMM16`, a message length in bytes. -/
  | digest (len : BitVec 16)
  /-- `WR idx, data` (44_host_commands.md R190). -/
  | wr (idx : BitVec 3) (data : Word)
  /-- `RD idx` (44_host_commands.md R190). -/
  | rd (idx : BitVec 3)
  /-- `U_SUBKEY_L` (43_mac_engine.md R152). -/
  | uSubkeyL
  /-- `U_SUBKEY_K1` (R153). -/
  | uSubkeyK1
  /-- `U_SUBKEY_K2` (R154). -/
  | uSubkeyK2
  /-- `U_COUNT` (R155). -/
  | uCount
  /-- `U_LAST` (R156). -/
  | uLast
  /-- `U_INIT` (R157). -/
  | uInit
  /-- `U_CHAIN` (R158). -/
  | uChain
  /-- `U_FINAL` (R159). -/
  | uFinal
  /-- `U_WRITE` (R160). -/
  | uWrite
deriving DecidableEq, Repr

/-- What has a bit-level form (30_encoding.md R90): a command word, a host port transaction (the 4-bit pattern
`h_we`, `h_idx` and the write data), a `PHASE` code. -/
inductive Code
  | command (w : Word)
  | port (pattern : BitVec 4) (wdata : Word)
  | phase (code : BitVec 4)
deriving DecidableEq, Repr

/-- What the host agent can do: the transactions of R190, `WAIT` of R99, looking at the level outputs (10_state.md
R34), pulsing `rst` (44_host_commands.md R196), and storing to and loading from memory, which it owns (20_memory.md
R72, R73). -/
inductive HostAction
  | wr (idx : BitVec 3) (data : Word)
  | rd (idx : BitVec 3)
  | wait
  | look
  | reset
  | store (addr : Word) (b : Byte)
  | load (addr : Word)
deriving DecidableEq, Repr

/-- A control register's name in a script (30_encoding.md R99). -/
inductive RegName
  | CMD | STATUS | MSG_ADDR | TAG_ADDR | CTX
deriving DecidableEq, Repr

/-- One line of the script notation of 30_encoding.md R99 (`MEM[a..b] = …` states memory and is no action). Numbers
are as written, not yet checked against their ranges. -/
inductive ScriptLine
  | wr (name : RegName) (value : Nat)
  | rd (name : RegName)
  | setup (c : Nat)
  | digest (n : Nat)
  | setmsg (a : Nat)
  | settag (a : Nat)
  | wait
  | cmac (a n t : Nat)
  | reset
deriving DecidableEq, Repr

end Sys2Proof
end

