-- ==== Sys2Proof/WellFormed.lean ====
section
/-! DEFINITION. Well-formedness. An `Instr` carries its operands at the field widths of spec/30_encoding.md R91 and
R96, so every term of it is well formed and there is nothing to check; a script line (R99) carries plain numbers, and
this is the check of their ranges. -/

namespace Sys2Proof

/-- A handle or a length in a pseudo-operation: `0 ≤ v ≤ 65535` (R99). -/
def immOk (v : Nat) : Bool := decide (v ≤ 65535)

/-- A value written to a control register: it fits in 32 bits (R9, R96). -/
def wordOk (v : Nat) : Bool := decide (v < 2 ^ 32)

/-- A script line whose every number is in the range R99 gives it. -/
def ScriptLine.wf : ScriptLine → Bool
  | .wr _ v => wordOk v
  | .rd _ => true
  | .setup c => immOk c
  | .digest n => immOk n
  | .setmsg a => wordOk a
  | .settag a => wordOk a
  | .wait => true
  | .cmac a n t => wordOk a && immOk n && wordOk t
  | .reset => true

end Sys2Proof
end

