-- ==== Sys2Proof/Decode.lean ====
section
/-! DEFINITION. Decoding of the three code spaces, the encoder, and the assembler of script lines
(spec/30_encoding.md R90 to R101). -/

namespace Sys2Proof

/-- Why a code names no instruction. -/
inductive DecodeError
  /-- `OPC` is neither 0x01 nor 0x02 (R95). -/
  | reservedOpc
  /-- `RSVZ` is not 0 (R95). -/
  | reservedBits
  /-- `PHASE` code 0, under which the engine performs nothing (R97). -/
  | phaseIdle
  /-- A `PHASE` code 10 to 15, never produced (R97). -/
  | phaseReserved
deriving DecidableEq, Repr

/-- `OPC = word[7:0]` (R91). -/
def opcOf (w : Word) : BitVec 8 := w.extractLsb' 0 8

/-- `RSVZ = word[15:8]` (R91). -/
def rsvzOf (w : Word) : BitVec 8 := w.extractLsb' 8 8

/-- `IMM16 = word[31:16]`, not extended, scaled or shifted (R93). -/
def immOf (w : Word) : BitVec 16 := w.extractLsb' 16 16

/-- A command word (R94, R95). -/
def decodeCommand (w : Word) : Except DecodeError Instr :=
  if rsvzOf w ≠ 0 then .error .reservedBits
  else if opcOf w = 0x01 then .ok (.setup (immOf w))
  else if opcOf w = 0x02 then .ok (.digest (immOf w))
  else .error .reservedOpc

/-- A host port pattern `h_we ‖ h_idx` with its write data (R96): `WR` is `1iii`, `RD` is `0iii`. -/
def decodePort (p : BitVec 4) (wdata : Word) : Instr :=
  if p.extractLsb' 3 1 = 1#1 then .wr (p.extractLsb' 0 3) wdata else .rd (p.extractLsb' 0 3)

/-- A `PHASE` code (R97). -/
def decodePhase (c : BitVec 4) : Except DecodeError Instr :=
  if c = 0 then .error .phaseIdle
  else if c = 1 then .ok .uSubkeyL
  else if c = 2 then .ok .uSubkeyK1
  else if c = 3 then .ok .uSubkeyK2
  else if c = 4 then .ok .uCount
  else if c = 5 then .ok .uLast
  else if c = 6 then .ok .uInit
  else if c = 7 then .ok .uChain
  else if c = 8 then .ok .uFinal
  else if c = 9 then .ok .uWrite
  else .error .phaseReserved

/-- The decoder, total on every code. -/
def decode : Code → Except DecodeError Instr
  | .command w => decodeCommand w
  | .port p d => .ok (decodePort p d)
  | .phase c => decodePhase c

/-- A command word from its immediate and operation code, `RSVZ` zero (R91). -/
def commandWord (imm : BitVec 16) (opc : BitVec 8) : Word := imm ++ 0#8 ++ opc

/-- The code of an instruction (R94, R96, R97). A `RD` carries no write data; its data lines are given as 0. -/
def encode : Instr → Code
  | .setup cap => .command (commandWord cap 0x01)
  | .digest len => .command (commandWord len 0x02)
  | .wr idx data => .port (1#1 ++ idx) data
  | .rd idx => .port (0#1 ++ idx) 0
  | .uSubkeyL => .phase 1
  | .uSubkeyK1 => .phase 2
  | .uSubkeyK2 => .phase 3
  | .uCount => .phase 4
  | .uLast => .phase 5
  | .uInit => .phase 6
  | .uChain => .phase 7
  | .uFinal => .phase 8
  | .uWrite => .phase 9

/-- The code that stands behind a table word. 32 bits are a command word. The table numbers a host port pattern and a
`PHASE` code both as 4 bits and does not say which of the two a word is: the nine codes that name a micro-operation
(R97) are read as `PHASE` codes, every other one as a port pattern with write data from bit 8 up (log 17). -/
def tableCode (nbits w : Nat) : Code :=
  if nbits > 8 then .command (BitVec.ofNat 32 w)
  else if 1 ≤ w % 16 ∧ w % 16 ≤ 9 then .phase (BitVec.ofNat 4 w)
  else .port (BitVec.ofNat 4 w) (BitVec.ofNat 32 (w / 256))

/-- The instruction the decoder reads from a table word (the host's numbering). -/
def decodeTableWord (nbits w : Nat) : Option Instr :=
  match decode (tableCode nbits w) with
  | .ok i => some i
  | .error _ => none

/-- The index of a control register (10_state.md R23). -/
def regIndex : RegName → BitVec 3
  | .CMD => 0
  | .STATUS => 1
  | .MSG_ADDR => 2
  | .TAG_ADDR => 3
  | .CTX => 4

/-- `WR CMD, (c << 16) | 0x01` (R99). -/
def setupAction (c : Nat) : HostAction := .wr 0 (commandWord (BitVec.ofNat 16 c) 0x01)

/-- `WR CMD, (n << 16) | 0x02` (R99). -/
def digestAction (n : Nat) : HostAction := .wr 0 (commandWord (BitVec.ofNat 16 n) 0x02)

/-- What a script line stands for, its pseudo-operations expanded (R99); nothing for a line out of range. -/
def assemble (l : ScriptLine) : Option (List HostAction) :=
  if l.wf then
    some (match l with
      | .wr name v => [.wr (regIndex name) (BitVec.ofNat 32 v)]
      | .rd name => [.rd (regIndex name)]
      | .setup c => [setupAction c]
      | .digest n => [digestAction n]
      | .setmsg a => [.wr 2 (BitVec.ofNat 32 a)]
      | .settag a => [.wr 3 (BitVec.ofNat 32 a)]
      | .wait => [.wait]
      | .cmac a n t => [.wr 2 (BitVec.ofNat 32 a), .wr 3 (BitVec.ofNat 32 t), digestAction n, .wait]
      | .reset => [.reset])
  else none

end Sys2Proof
end

