-- ==== Sys2Proof/Machine/Blocks.lean ====
section
/-! DEFINITION. Buffers and blocks: the left shift with carry, the buffer XOR, and DBL (spec/42_shift_and_xor.md,
spec/41_subkey_generator.md R127). A buffer is a list of bytes, index 0 first. -/

namespace Sys2Proof.Machine

/-- Byte `i` of a block is bits `127-8i` to `120-8i` (00_scope.md R11). -/
def blockByte (b : Block) (i : Nat) : Byte := b.extractLsb' (120 - 8 * i) 8

/-- The sixteen bytes of a block, byte 0 first. -/
def blockBytes (b : Block) : List Byte := (List.range 16).map (blockByte b)

/-- The number a buffer is when it is read as one big-endian bit string (00_scope.md R11). -/
def bufNat : List Byte → Nat
  | [] => 0
  | b :: rest => b.toNat * 2 ^ (8 * rest.length) + bufNat rest

/-- A sixteen-byte buffer as a block. -/
def ofBytes (bs : List Byte) : Block := BitVec.ofNat 128 (bufNat bs)

/-- `cin` of R136: bit 7 of the first byte of what follows, 0 after the last byte. -/
def carryIn : List Byte → Byte
  | [] => 0
  | b :: _ => if b.msb then 1 else 0

/-- `SHL1` on a buffer (42_shift_and_xor.md R136). -/
def shl1 : List Byte → List Byte
  | [] => []
  | b :: rest => (b <<< 1 ||| carryIn rest) :: shl1 rest

/-- The loop of R137, highest index first: the carry that has left, and the bytes written so far. -/
def shl1Loop : List Byte → Byte × List Byte
  | [] => (0, [])
  | b :: rest =>
    let below := shl1Loop rest
    (if b.msb then 1 else 0, (b <<< 1 ||| below.1) :: below.2)

/-- `XOR` on two buffers of the same length (42_shift_and_xor.md R141). -/
def xorBuf (a b : List Byte) : List Byte := List.zipWith (· ^^^ ·) a b

/-- `SHL1` on a block. -/
def blockShl1 (a : Block) : Block := ofBytes (shl1 (blockBytes a))

/-- `DBL` (41_subkey_generator.md R127): bit 7 of byte 0 is taken before the shift; `0x87` goes into byte 15. -/
def dbl (a : Block) : Block :=
  if (blockByte a 0).msb then blockShl1 a ^^^ 0x87 else blockShl1 a

/-- `SUBKEYS` (41_subkey_generator.md R134). -/
def subkeys (E : Block → Block) : Block × Block :=
  (dbl (E zero16), dbl (dbl (E zero16)))

end Sys2Proof.Machine
end

