-- ==== Sys2Proof/Config.lean ====
section
/-! DEFINITION. What an implementation or the platform fixes, and the free values (spec/93_implementation_defined.md). -/

namespace Sys2Proof

/-- A value the spec leaves unspecified (U2, U9): `w` bits, the `k`-th such value of a run. Nothing is known of it
(log 6, log 14). -/
opaque Config.freeBits (w k : Nat) : BitVec w

/-- The block function of a cipher the model knows nothing of, named by a number: total and deterministic, which is
all R112 and R121 of 40_cipher_adapter.md say of `E_c` (log 3). -/
opaque Config.blockFn (cipher : Nat) (b : Block) : Block

/-- What an address of memory that nothing has written reads as. DESIGN CHOICE, unsafe (log 7): the spec gives memory
no content (00_scope.md R16). -/
def Config.unlistedByte : Byte := 0

end Sys2Proof
end

