-- ==== Sys2Proof/Machine/State.lean ====
section
/-! DEFINITION. The state: the engine's own (spec/10_state.md R20), what stands on its ports, memory, the platform's
parameters, and what the other agents still hold. INVENTORY.md lists every field with its rule and its reset value. -/

namespace Sys2Proof.Machine

/-- `STATE`, 2 bits (10_state.md R25). -/
inductive Status
  | idle | busy | done | error
deriving DecidableEq, Repr

/-- `ERR`, 4 bits; "No other value is ever produced" (10_state.md R25, 60_exceptions.md R211). -/
inductive ErrCode
  | none | ctx | cap | msg | out | cmd
deriving DecidableEq, Repr

/-- `PHASE`, 4 bits, the sequencer position that stands in a program counter's place; codes 10 to 15 are never held
(10_state.md R30). -/
inductive Phase
  | idle | subkeyL | subkeyK1 | subkeyK2 | count | last | init | chain | final | write
deriving DecidableEq, Repr

/-- `ENC_DST`, 1 bit: the register an adapter transaction works on in place (10_state.md R32). -/
inductive EncDst
  | l | x
deriving DecidableEq, Repr

/-- The complete state of one engine (10_state.md R20); the names are that table's. -/
structure Engine where
  l : Block
  k1 : Block
  k2 : Block
  mlast : Block
  x : Block
  ctxValid : Bool
  ctxCap : Handle
  msgAddr : Word
  tagAddr : Word
  status : Status
  err : ErrCode
  phase : Phase
  msgBase : Word
  tagBase : Word
  len : BitVec 16
  n : BitVec 13
  flag : Bool
  r : BitVec 5
  i : BitVec 13
  encPend : Bool
  encDst : EncDst
deriving DecidableEq, Repr

/-- Memory: the bytes that differ from what an unlisted address reads as, addresses strictly rising. -/
abbrev Memory := List Host.Cell

/-- A range of byte addresses the platform serves, and what the engine may do there (20_memory.md R78). -/
structure Region where
  base : Nat
  size : Nat
  readable : Bool
  writable : Bool
deriving DecidableEq, Repr

/-- A cipher under one key: the answers that are known, and the number of the block function that gives all others
(40_cipher_adapter.md R112; log 3). -/
structure Cipher where
  known : List (Block × Block)
  rest : Nat
deriving DecidableEq, Repr

/-- The platform's parameters (00_scope.md R10): the number of the highest address bit, `ADDR_W - 1` (10_state.md R26), which
addresses may be read and written, and which cipher answers under which handle. A handle listed with `none` has nothing
attached. -/
structure Platform where
  addrTop : Fin 32
  map : List Region
  ciphers : List (Handle × Option Cipher)
deriving DecidableEq, Repr

/-- `ADDR_W`, from 1 to 32 (00_scope.md R10). -/
def Platform.addrW (p : Platform) : Nat := p.addrTop.val + 1

/-- An adapter request: handle and block (40_cipher_adapter.md R113). -/
structure Request where
  cap : Handle
  block : Block
deriving DecidableEq, Repr

/-- The level outputs (10_state.md R34). -/
structure Outputs where
  busy : Bool
  cmdReady : Bool
  done : Bool
deriving DecidableEq, Repr

/-- What the platform can do: bind a cipher to a handle or take it away (70_reset_and_hazards.md R246, R253), change
which addresses exist (93_implementation_defined.md U4). -/
inductive PlatformAction
  | attach (h : Handle) (c : Option Cipher)
  | remap (map : List Region)
deriving DecidableEq, Repr

/-- The agents (00_scope.md R15); memory answers within the step that asks. -/
inductive Agent
  | engine | adapter | host | platform | rst
deriving DecidableEq, Repr

/-- The whole machine: one engine and what surrounds it. -/
structure State where
  /-- The engine (10_state.md R20). -/
  eng : Engine
  /-- The memory behind the memory port (20_memory.md R60). -/
  mem : Memory
  /-- Addresses whose byte a reset during a digest has left unspecified, each with the number of the free value it holds
  until it is written again (70_reset_and_hazards.md R243; log 15). -/
  torn : List (Nat × Nat)
  /-- The request presented to the adapter and not yet answered (40_cipher_adapter.md R114). -/
  encReq : Option Request
  /-- The answer the adapter presents and the engine has not yet taken (40_cipher_adapter.md R115). -/
  encRsp : Option Block
  /-- `h_rdata` of the latest `RD` (30_encoding.md R96). -/
  hRdata : Word
  /-- The byte the host's latest load gave. -/
  hLoad : Byte
  /-- The level outputs the host saw when it last looked. -/
  hOuts : Outputs
  /-- Addresses whose bytes the host may neither rely on nor write: the tag buffers of accepted digests, until
  `STATE = DONE` is observed (20_memory.md R79, 70_reset_and_hazards.md R251). -/
  tagOpen : List Nat
  /-- The platform's parameters (00_scope.md R10, R16). -/
  plat : Platform
  /-- The host's remaining actions, the next one first; a held command write stays first (44_host_commands.md R191). -/
  host : List HostAction
  /-- Answers the adapter gives next that are no function of the request (40_cipher_adapter.md R120). -/
  oracle : List Block
  /-- The platform's remaining actions. -/
  platActs : List PlatformAction
  /-- Which agent moves next, the first one first; when empty, the default order of `freeRun` (log 8). -/
  turns : List Agent
  /-- How many free values have been used; the model's own counter (log 6). -/
  free : Nat
deriving DecidableEq, Repr

/-- How a run stops. None of these is a reported error: an error of the spec is a next state (60_exceptions.md R216). -/
inductive Fault
  /-- The engine waits for an answer that no agent is going to give; raised by `step`, and by a micro-operation asked
  to complete with no answer on the port. The spec's "stuck" (40_cipher_adapter.md R116, U11). Safe. -/
  | adapterSilent
  /-- The engine waits for a memory access that the platform does not serve, and no agent can move; raised by `step`, and by
  `U_LAST`, `U_CHAIN`, `U_WRITE` asked for that access. The spec's "stuck" (60_exceptions.md R219, U4). Safe. -/
  | memoryUnserved
  /-- `U_CHAIN` with `I > N-1`: none of the three steps of 43_mac_engine.md R158 is enabled. No run from reset gets
  there (10_state.md R39). Safe. -/
  | chainPastEnd
  /-- `U_LAST` with `N`, `FLAG`, `R` that `COUNT` never gives (43_mac_engine.md R161, R162: `PAD` takes at most 15
  bytes, a complete chunk has 16). No run from reset gets there. Safe. -/
  | countIllegal
  /-- A host store or load at an address that does not exist, at or above 2^ADDR_W (20_memory.md R60). Safe. -/
  | noSuchAddress
deriving DecidableEq, Repr

/-- Runs the model gives no meaning to. -/
inductive Refusal
  /-- An instruction without a meaning; no arm of `exec` answers so. Safe. -/
  | notModelled (mnemonic : String)
  /-- `DIGEST` whose tag buffer overlaps its message (20_memory.md R80, 70_reset_and_hazards.md R254). Safe. -/
  | overlappingBuffers
  /-- A host store to a message byte of the running digest (20_memory.md R73, U7). Safe. -/
  | messageChanged
  /-- A host store to a tag byte of a digest not yet observed to be done (20_memory.md R73, 70_reset_and_hazards.md R251).
  Safe. -/
  | tagDisturbed
deriving DecidableEq, Repr

/-- The engine right after reset (10_state.md R37). The registers R37 leaves unspecified hold zero, and `N` holds 1, the
least value it may have (R31): DESIGN CHOICE, unsafe (log 5). -/
def Engine.reset : Engine where
  l := 0
  k1 := 0
  k2 := 0
  mlast := 0
  x := 0
  ctxValid := false
  ctxCap := 0
  msgAddr := 0
  tagAddr := 0
  status := .idle
  err := .none
  phase := .idle
  msgBase := 0
  tagBase := 0
  len := 0
  n := 1
  flag := false
  r := 0
  i := 0
  encPend := false
  encDst := .l

/-- The platform of `State.reset`: `ADDR_W = 32` (the default of 00_scope.md R10), every address readable and writable,
a free block function under every non-zero handle. DESIGN CHOICE but for the width (log 1, log 2, log 3). -/
def Platform.reset : Platform where
  addrTop := 31
  map := [⟨0, 2 ^ 32, true, true⟩]
  ciphers := []

/-- The machine right after reset: the engine as R37 says, memory with nothing listed, no agent holding anything. -/
def State.reset : State where
  eng := Engine.reset
  mem := []
  torn := []
  encReq := none
  encRsp := none
  hRdata := 0
  hLoad := 0
  hOuts := ⟨false, true, false⟩
  tagOpen := []
  plat := Platform.reset
  host := []
  oracle := []
  platActs := []
  turns := []
  free := 0

end Sys2Proof.Machine
end

