-- ==== Sys2Proof/Machine/Flags.lean ====
section
/-! DEFINITION. The one stored flag and the counters computed with it, the codes of the status fields, and the level
outputs (spec/43_mac_engine.md R162, spec/10_state.md R25, R30, R33, R34). -/

namespace Sys2Proof.Machine

/-- `COUNT` (43_mac_engine.md R162): block count, whether the last block is complete, bytes in the last block. -/
def count (len : Nat) : Nat × Bool × Nat :=
  if len = 0 then (1, false, 0)
  else if len % 16 = 0 then (len / 16, true, 16)
  else (len / 16 + 1, false, len % 16)

/-- The code of `STATE` (10_state.md R25). -/
def statusCode : Status → BitVec 2
  | .idle => 0
  | .busy => 1
  | .done => 2
  | .error => 3

/-- The code of `ERR` (60_exceptions.md R211). -/
def errCode : ErrCode → BitVec 4
  | .none => 0
  | .ctx => 1
  | .cap => 2
  | .msg => 3
  | .out => 4
  | .cmd => 8

/-- The code of `PHASE` (10_state.md R30). -/
def phaseCode : Phase → BitVec 4
  | .idle => 0
  | .subkeyL => 1
  | .subkeyK1 => 2
  | .subkeyK2 => 3
  | .count => 4
  | .last => 5
  | .init => 6
  | .chain => 7
  | .final => 8
  | .write => 9

/-- The phase a code names; codes 10 to 15 name none. -/
def phaseOfCode (c : BitVec 4) : Option Phase :=
  [Phase.idle, .subkeyL, .subkeyK1, .subkeyK2, .count, .last, .init, .chain, .final, .write].find?
    (fun p => phaseCode p == c)

/-- `busy` (10_state.md R34). -/
def isBusy (e : Engine) : Bool := e.status == .busy

/-- `busy`, `cmd_ready = not busy`, `done` (10_state.md R34). -/
def outputs (e : Engine) : Outputs :=
  ⟨isBusy e, !isBusy e, e.status == .done || e.status == .error⟩

end Sys2Proof.Machine
end

