-- ==== Sys2Proof/Machine/Ops.lean ====
section
/-! DEFINITION. The named operations over memory, the adapter port and the registers: memory and admission
(spec/20_memory.md), issue and completion of an adapter transaction (spec/40_cipher_adapter.md R114, R115), error entry
(spec/60_exceptions.md R216), reset (spec/70_reset_and_hazards.md R241). -/

namespace Sys2Proof.Machine

/-! ### Memory -/

/-- The byte at an address. -/
def Memory.read : Memory → Nat → Byte
  | [], _ => Config.unlistedByte
  | (x, b) :: m, a => if x = a then b else Memory.read m a

/-- A write of one byte, keeping the canonical form. -/
def Memory.write : Memory → Nat → Byte → Memory
  | [], a, b => if b = Config.unlistedByte then [] else [(a, b)]
  | (x, c) :: m, a, b =>
    if a < x then (if b = Config.unlistedByte then (x, c) :: m else (a, b) :: (x, c) :: m)
    else if a = x then (if b = Config.unlistedByte then m else (a, b) :: m)
    else (x, c) :: Memory.write m a b

/-- `MemWrite`'s effect on memory: byte `k` goes to `addr + k` (20_memory.md R64). -/
def Memory.writeBytes : Memory → Nat → List Byte → Memory
  | m, _, [] => m
  | m, a, b :: bs => Memory.writeBytes (m.write a b) (a + 1) bs

/-- The bytes at `addr`, …, `addr + n - 1` (20_memory.md R63). -/
def Memory.readBytes (m : Memory) (addr n : Nat) : List Byte :=
  (List.range n).map (fun k => m.read (addr + k))

/-- The canonical form: addresses strictly rising, no byte equal to what an unlisted address reads as. -/
abbrev Memory.wf (m : Memory) : Prop :=
  m.Pairwise (fun c d => c.1 < d.1) ∧ ∀ c ∈ m, c.2 ≠ Config.unlistedByte

/-- The addresses `addr`, …, `addr + n - 1`. -/
def addrsFrom (addr n : Nat) : List Nat := (List.range n).map (addr + ·)

/-! ### Admission -/

/-- The address exists and the engine may read it. -/
def Platform.readableAt (p : Platform) (a : Nat) : Bool :=
  p.map.any (fun r => r.readable && decide (r.base ≤ a) && decide (a < r.base + r.size))

/-- The address exists and the engine may write it. -/
def Platform.writableAt (p : Platform) (a : Nat) : Bool :=
  p.map.any (fun r => r.writable && decide (r.base ≤ a) && decide (a < r.base + r.size))

/-- `AdmitR(a, n)` (20_memory.md R78). -/
def admitR (p : Platform) (a n : Nat) : Bool :=
  n == 0 || (decide (a + n ≤ 2 ^ p.addrW) && (addrsFrom a n).all p.readableAt)

/-- `AdmitW(a, n)` (20_memory.md R78). -/
def admitW (p : Platform) (a n : Nat) : Bool :=
  n == 0 || (decide (a + n ≤ 2 ^ p.addrW) && (addrsFrom a n).all p.writableAt)

/-- Bits above `ADDR_W - 1` of a written word are ignored (10_state.md R26). -/
def truncAddr (p : Platform) (w : Word) : Word := BitVec.ofNat 32 (w.toNat % 2 ^ p.addrW)

/-! ### Memory as the agents see it -/

/-- The byte at an address: the one in memory, or the unspecified one a reset during a digest has left
(70_reset_and_hazards.md R243). -/
def State.byteAt (s : State) (a : Nat) : Byte :=
  match s.torn.lookup a with
  | some k => Config.freeBits 8 k
  | none => s.mem.read a

/-- The bytes at `addr`, …, `addr + n - 1`. -/
def State.bytesAt (s : State) (addr n : Nat) : List Byte :=
  (List.range n).map (fun k => s.byteAt (addr + k))

/-- Bytes are written: they are what memory then holds. -/
def putBytes (addr : Nat) (bs : List Byte) (s : State) : State :=
  { s with
    mem := s.mem.writeBytes addr bs
    torn := s.torn.filter (fun c => decide (c.1 < addr ∨ addr + bs.length ≤ c.1)) }

/-- The sixteen bytes at `base` are unspecified from now on; their free values start at number `k`. -/
def tear (base k : Nat) (old : List (Nat × Nat)) : List (Nat × Nat) :=
  (List.range 16).map (fun j => (base + j, k + j)) ++
    old.filter (fun c => decide (c.1 < base ∨ base + 16 ≤ c.1))

/-- `MemRead(addr, n)` (20_memory.md R63); nothing when the platform does not serve the access (60_exceptions.md R219). -/
def memRead (s : State) (addr n : Nat) : Option (List Byte) :=
  if admitR s.plat addr n then some (s.bytesAt addr n) else none

/-- `MemWrite(addr, n, B)` with `n` the length of `B` (20_memory.md R64). -/
def memWrite (s : State) (addr : Nat) (bs : List Byte) : Option State :=
  if admitW s.plat addr bs.length then some (putBytes addr bs s) else none

/-! ### The adapter port -/

/-- `Adapter(c)` (00_scope.md R10): handle 0 is nothing; a handle the platform lists is as listed; every other handle has
the free block function of its number (log 3). -/
def Platform.adapter (p : Platform) (c : Handle) : Option Cipher :=
  if c = 0 then none
  else match p.ciphers.lookup c with
    | some attached => attached
    | none => some ⟨[], c.toNat⟩

/-- `E_c`, the total block function of a cipher (40_cipher_adapter.md R112). -/
def Cipher.encrypt (c : Cipher) (b : Block) : Block :=
  match c.known.lookup b with
  | some r => r
  | none => Config.blockFn c.rest b

/-- The register `ENC_DST` names. -/
def encReg (e : Engine) : Block :=
  match e.encDst with
  | .l => e.l
  | .x => e.x

/-- Write the register `ENC_DST` names. -/
def setEncReg (e : Engine) (b : Block) : Engine :=
  match e.encDst with
  | .l => { e with l := b }
  | .x => { e with x := b }

/-- Issue (40_cipher_adapter.md R114) on a register the micro-operation has prepared: the request is `CTX.CAP` with that
register. -/
def issue (d : EncDst) (s : State) : State :=
  let e := { s.eng with encDst := d, encPend := true }
  { s with eng := e, encReq := some ⟨e.ctxCap, encReg e⟩ }

/-- Completion (40_cipher_adapter.md R115): the answer on the port goes to the register `ENC_DST` names; nothing when no
answer is presented. -/
def takeAnswer (s : State) : Option State :=
  match s.encRsp with
  | none => none
  | some r => some { s with eng := { setEncReg s.eng r with encPend := false }, encRsp := none }

/-- The adapter presents an answer: the engine sees it only while it waits, else it is ignored (40_cipher_adapter.md
R115). Either way the outstanding request is answered. -/
def presentAnswer (r : Block) (s : State) : State :=
  { s with encReq := none, encRsp := if s.eng.encPend then some r else s.encRsp }

/-! ### Errors, acceptance, reset -/

/-- Error entry (60_exceptions.md R216): `STATE` and `ERR`, and nothing else. -/
def raise (code : ErrCode) (s : State) : State :=
  { s with eng := { s.eng with status := .error, err := code } }

/-- What every acceptance does first (44_host_commands.md R194). -/
def clearErr (s : State) : State := { s with eng := { s.eng with err := .none } }

/-- From now on the host may neither rely on nor write the sixteen bytes at `base` (20_memory.md R79,
70_reset_and_hazards.md R251). -/
def openTag (base : Nat) (old : List Nat) : List Nat :=
  addrsFrom base 16 ++ old.filter (fun a => decide (a ∉ addrsFrom base 16))

/-- The sixteen bytes at `base` are no digest's any more. -/
def closeTag (base : Nat) (old : List Nat) : List Nat :=
  old.filter (fun a => decide (a ∉ addrsFrom base 16))

/-- What the host learns when it sees `STATE = DONE`: no digest runs, and every tag written so far is there (20_memory.md
R72 (a), (d), R79). DEDUCED for tags of digests before the last one (log 14). -/
def observe (s : State) : State :=
  if s.eng.status = .done then { s with tagOpen := [] } else s

/-- The engine after a reset whose free values start at number `k` (10_state.md R37): what R37 calls unspecified holds
free values, the two addresses among them cut to the address width. -/
def resetEngine (p : Platform) (k : Nat) : Engine where
  l := Config.freeBits 128 k
  k1 := Config.freeBits 128 (k + 1)
  k2 := Config.freeBits 128 (k + 2)
  mlast := Config.freeBits 128 (k + 3)
  x := Config.freeBits 128 (k + 4)
  ctxValid := false
  ctxCap := 0
  msgAddr := 0
  tagAddr := 0
  status := .idle
  err := .none
  phase := .idle
  msgBase := truncAddr p (Config.freeBits 32 (k + 5))
  tagBase := truncAddr p (Config.freeBits 32 (k + 6))
  len := Config.freeBits 16 (k + 7)
  n := Config.freeBits 13 (k + 8)
  flag := Config.freeBits 1 (k + 9) == 1#1
  r := Config.freeBits 5 (k + 10)
  i := Config.freeBits 13 (k + 11)
  encPend := false
  encDst := if Config.freeBits 1 (k + 12) = 1#1 then .x else .l

/-- The reset input fires (70_reset_and_hazards.md R241, R242): the engine, and an answer it had not taken; not memory,
not the cipher, not the request the adapter is still working on, not what the host holds (R244). A digest that ran is
abandoned and leaves its sixteen tag bytes unspecified (R243). -/
def resetPulse (s : State) : State :=
  { s with
    eng := resetEngine s.plat s.free
    encRsp := none
    torn := if isBusy s.eng then tear s.eng.tagBase.toNat (s.free + 13) s.torn else s.torn
    tagOpen := if isBusy s.eng then closeTag s.eng.tagBase.toNat s.tagOpen else s.tagOpen
    free := s.free + 29 }

end Sys2Proof.Machine
end

