-- ==== Sys2Proof/Machine/Operands.lean ====
section
/-! DEFINITION. Operands: the three effective addresses (spec/43_mac_engine.md R169), the last chunk and its padding
(R156, R161), the words the host port reads (spec/44_host_commands.md R190). -/

namespace Sys2Proof.Machine

/-- `EA_last = MSG_BASE + 16*(N-1)` (R169). -/
def eaLast (e : Engine) : Nat := e.msgBase.toNat + 16 * (e.n.toNat - 1)

/-- `EA_block(I) = MSG_BASE + 16*I` (R169). -/
def eaBlock (e : Engine) : Nat := e.msgBase.toNat + 16 * e.i.toNat

/-- `EA_tag = TAG_BASE` (R169). -/
def eaTag (e : Engine) : Nat := e.tagBase.toNat

/-- `PAD` of at most 15 bytes (R161): the bytes, `0x80`, zeros. -/
def pad (chunk : List Byte) : Block :=
  ofBytes (chunk ++ 0x80 :: List.replicate (15 - chunk.length) 0)

/-- `MLAST` from the last chunk (R156): XOR with `K1` when complete, `PAD` and XOR with `K2` when not. Nothing where
neither is defined, a complete chunk that has not 16 bytes or one to be padded that has more than 15. -/
def lastBlock (complete : Bool) (chunk : List Byte) (k1 k2 : Block) : Option Block :=
  if complete then (if chunk.length = 16 then some (ofBytes chunk ^^^ k1) else none)
  else (if chunk.length ≤ 15 then some (pad chunk ^^^ k2) else none)

/-- The word of `STATUS`: `ERR << 8 | PHASE << 4 | STATE` (10_state.md R25). -/
def statusWord (e : Engine) : Word :=
  0#20 ++ errCode e.err ++ phaseCode e.phase ++ 0#2 ++ statusCode e.status

/-- The word of `CTX`: `VALID ‖ 0[14:0] ‖ CAP` (10_state.md R22). -/
def ctxWord (e : Engine) : Word := BitVec.ofBool e.ctxValid ++ 0#15 ++ e.ctxCap

/-- What `RD idx` returns (44_host_commands.md R190). -/
def readReg (e : Engine) (idx : BitVec 3) : Word :=
  if idx = 1 then statusWord e
  else if idx = 2 then e.msgAddr
  else if idx = 3 then e.tagAddr
  else if idx = 4 then ctxWord e
  else 0

/-- Some of the `len` message bytes at `msg` is one of the sixteen bytes at `tag` (20_memory.md R80). -/
def overlaps (msg len tag : Nat) : Bool :=
  decide (len ≠ 0) && decide (msg < tag + 16) && decide (tag < msg + len)

end Sys2Proof.Machine
end

