-- ==== Sys2Proof/Machine/Command.lean ====
section
/-! DEFINITION. The two commands, each with its acceptance step (spec/44_host_commands.md R191 to R194). A command issued
while `STATE = BUSY` is held: it has not happened, nothing changes (R191), and `step` keeps it on the port (log 9). -/

namespace Sys2Proof.Machine

/-- What `SETUP cap` writes (R192). -/
def setupContext (cap : Handle) (s : State) : State :=
  { s with eng := { s.eng with ctxCap := cap, ctxValid := true, status := .idle, err := .none } }

/-- What an admitted `DIGEST len` latches and starts (R193). -/
def startDigest (len : BitVec 16) (s : State) : State :=
  { s with
    eng := { s.eng with
      msgBase := s.eng.msgAddr, tagBase := s.eng.tagAddr, len := len, status := .busy, phase := .subkeyL }
    tagOpen := openTag s.eng.tagAddr.toNat s.tagOpen }

/-- The checks of `DIGEST len` in their order (R193, 60_exceptions.md R213); then the refusal of an overlap
(70_reset_and_hazards.md R254). -/
def acceptDigest (len : BitVec 16) (s : State) : Host.Outcome State Fault Refusal :=
  if s.eng.ctxValid = false then .next (raise .ctx s)
  else if s.eng.ctxCap = 0 then .next (raise .cap s)
  else if admitR s.plat s.eng.msgAddr.toNat len.toNat = false then .next (raise .msg s)
  else if admitW s.plat s.eng.tagAddr.toNat 16 = false then .next (raise .out s)
  else if overlaps s.eng.msgAddr.toNat len.toNat s.eng.tagAddr.toNat then .refused .overlappingBuffers
  else .next (startDigest len s)

/-- `SETUP cap` (R192). -/
def execSetup (cap : Handle) (s : State) : Host.Outcome State Fault Refusal :=
  if isBusy s.eng then .next s else .next (setupContext cap (clearErr s))

/-- `DIGEST len` (R193). -/
def execDigest (len : BitVec 16) (s : State) : Host.Outcome State Fault Refusal :=
  if isBusy s.eng then .next s else acceptDigest len (clearErr s)

end Sys2Proof.Machine
end

