-- ==== Sys2Proof/Machine/HostPort.lean ====
section
/-! DEFINITION. The host port transactions `WR` and `RD` (spec/44_host_commands.md R190, R191, R194). -/

namespace Sys2Proof.Machine

/-- Acceptance of a command word (R194): `SETUP`, `DIGEST`, or `IllegalCmd` (60_exceptions.md R215). -/
def acceptWord (w : Word) (s : State) : Host.Outcome State Fault Refusal :=
  match decodeCommand w with
  | .ok (.setup cap) => execSetup cap s
  | .ok (.digest len) => execDigest len s
  | _ => .next (raise .cmd (clearErr s))

/-- `WR idx, data` (R190). A write to `CMD` is held while the engine is busy (R191): nothing changes. -/
def execWr (idx : BitVec 3) (data : Word) (s : State) : Host.Outcome State Fault Refusal :=
  if idx = 0 then (if isBusy s.eng then .next s else acceptWord data s)
  else if idx = 2 then .next { s with eng := { s.eng with msgAddr := truncAddr s.plat data } }
  else if idx = 3 then .next { s with eng := { s.eng with tagAddr := truncAddr s.plat data } }
  else .next s

/-- `RD idx` (R190): the engine does not change; the data is on the port, and a host that reads `STATE = DONE` there has
observed it. -/
def execRd (idx : BitVec 3) (s : State) : Host.Outcome State Fault Refusal :=
  let s' := if idx = 1 then observe s else s
  .next { s' with hRdata := readReg s.eng idx }

end Sys2Proof.Machine
end

