-- ==== Sys2Proof/Machine/Mac.lean ====
section
/-! DEFINITION. The micro-operations of the MAC engine (spec/43_mac_engine.md R155 to R160), and the function they add
up to (R150). -/

namespace Sys2Proof.Machine

/-- `U_COUNT` (R155). -/
def execUCount (s : State) : Host.Outcome State Fault Refusal :=
  let c := count s.eng.len.toNat
  .next { s with eng := { s.eng with
    n := BitVec.ofNat 13 c.1, flag := c.2.1, r := BitVec.ofNat 5 c.2.2, phase := .last } }

/-- `U_LAST` (R156). -/
def execULast (s : State) : Host.Outcome State Fault Refusal :=
  if s.eng.n = 0 then .fault .countIllegal
  else match memRead s (eaLast s.eng) s.eng.r.toNat with
    | none => .fault .memoryUnserved
    | some chunk =>
      match lastBlock s.eng.flag chunk s.eng.k1 s.eng.k2 with
      | none => .fault .countIllegal
      | some m => .next { s with eng := { s.eng with mlast := m, phase := .init } }

/-- `U_INIT` (R157). -/
def execUInit (s : State) : Host.Outcome State Fault Refusal :=
  .next { s with eng := { s.eng with x := zero16, i := 0, phase := .chain } }

/-- `U_CHAIN` (R158): step b, exit step, step a. -/
def execUChain (s : State) : Host.Outcome State Fault Refusal :=
  if s.eng.encPend then
    match takeAnswer s with
    | none => .fault .adapterSilent
    | some t => .next { t with eng := { t.eng with i := t.eng.i + 1 } }
  else if s.eng.i.toNat + 1 = s.eng.n.toNat then
    .next { s with eng := { s.eng with phase := .final } }
  else if s.eng.i.toNat + 1 < s.eng.n.toNat then
    match memRead s (eaBlock s.eng) 16 with
    | none => .fault .memoryUnserved
    | some b => .next (issue .x { s with eng := { s.eng with x := s.eng.x ^^^ ofBytes b } })
  else .fault .chainPastEnd

/-- `U_FINAL` (R159). -/
def execUFinal (s : State) : Host.Outcome State Fault Refusal :=
  if s.eng.encPend then
    match takeAnswer s with
    | none => .fault .adapterSilent
    | some t => .next { t with eng := { t.eng with phase := .write } }
  else .next (issue .x { s with eng := { s.eng with x := s.eng.x ^^^ s.eng.mlast } })

/-- `U_WRITE` (R160). -/
def execUWrite (s : State) : Host.Outcome State Fault Refusal :=
  match memWrite s (eaTag s.eng) (blockBytes s.eng.x) with
  | none => .fault .memoryUnserved
  | some t => .next { t with eng := { t.eng with status := .done, phase := .idle } }

/-- Message block `j`, sixteen bytes (20_memory.md R61), of a message given by its bytes. -/
def messageBlock (M : Nat → Byte) (j : Nat) : Block :=
  ofBytes ((List.range 16).map (fun k => M (16 * j + k)))

/-- The accumulator of R150 after `i` blocks. -/
def chainValue (E : Block → Block) (M : Nat → Byte) : Nat → Block
  | 0 => zero16
  | i + 1 => E (chainValue E M i ^^^ messageBlock M i)

/-- The last chunk of a message of `len` bytes (R150). -/
def lastChunk (M : Nat → Byte) (len : Nat) : List Byte :=
  (List.range (count len).2.2).map (fun k => M (16 * ((count len).1 - 1) + k))

/-- `Mlast` of R150. -/
def finishedLast (E : Block → Block) (M : Nat → Byte) (len : Nat) : Block :=
  if (count len).2.1 then ofBytes (lastChunk M len) ^^^ (subkeys E).1
  else pad (lastChunk M len) ^^^ (subkeys E).2

/-- `CMAC(E, M)` for a message of `len` bytes (R150). -/
def cmac (E : Block → Block) (M : Nat → Byte) (len : Nat) : Block :=
  E (chainValue E M ((count len).1 - 1) ^^^ finishedLast E M len)

end Sys2Proof.Machine
end

