-- ==== Sys2Proof/Machine/Subkey.lean ====
section
/-! DEFINITION. The micro-operations of the subkey generator (spec/43_mac_engine.md R152 to R154). -/

namespace Sys2Proof.Machine

/-- `U_SUBKEY_L` (R152): step a clears `L` and issues; step b takes the answer. -/
def execUSubkeyL (s : State) : Host.Outcome State Fault Refusal :=
  if s.eng.encPend then
    match takeAnswer s with
    | none => .fault .adapterSilent
    | some t => .next { t with eng := { t.eng with phase := .subkeyK1 } }
  else .next (issue .l { s with eng := { s.eng with l := zero16 } })

/-- `U_SUBKEY_K1` (R153). -/
def execUSubkeyK1 (s : State) : Host.Outcome State Fault Refusal :=
  .next { s with eng := { s.eng with k1 := dbl s.eng.l, phase := .subkeyK2 } }

/-- `U_SUBKEY_K2` (R154). -/
def execUSubkeyK2 (s : State) : Host.Outcome State Fault Refusal :=
  .next { s with eng := { s.eng with k2 := dbl s.eng.k1, phase := .count } }

end Sys2Proof.Machine
end

