-- ==== Sys2Proof/Machine/Dispatch.lean ====
section
/-! DEFINITION. One arm per instruction of spec/opcode_table.json. -/

namespace Sys2Proof.Machine

def exec (i : Instr) (s : State) : Host.Outcome State Fault Refusal :=
  match i with
  | .setup cap => Sys2Proof.Machine.execSetup cap s
  | .digest len => Sys2Proof.Machine.execDigest len s
  | .wr idx data => Sys2Proof.Machine.execWr idx data s
  | .rd idx => Sys2Proof.Machine.execRd idx s
  | .uSubkeyL => Sys2Proof.Machine.execUSubkeyL s
  | .uSubkeyK1 => Sys2Proof.Machine.execUSubkeyK1 s
  | .uSubkeyK2 => Sys2Proof.Machine.execUSubkeyK2 s
  | .uCount => Sys2Proof.Machine.execUCount s
  | .uLast => Sys2Proof.Machine.execULast s
  | .uInit => Sys2Proof.Machine.execUInit s
  | .uChain => Sys2Proof.Machine.execUChain s
  | .uFinal => Sys2Proof.Machine.execUFinal s
  | .uWrite => Sys2Proof.Machine.execUWrite s

end Sys2Proof.Machine
end

