-- ==== Sys2Proof/Machine/Agents.lean ====
section
/-! DEFINITION. What each agent does when it moves, when it can move, and how an instruction is fetched
(spec/00_scope.md R14, R15). -/

namespace Sys2Proof.Machine

/-! ### Fetch -/

/-- The code the engine's sequencer presents: its `PHASE` (10_state.md R30). -/
def engineCode (s : State) : Code := .phase (phaseCode s.eng.phase)

/-- The code a host transaction presents on the port (30_encoding.md R96); `WAIT` repeats `RD STATUS` (R99). The other
actions are not transactions. -/
def hostCode : HostAction → Option Code
  | .wr idx data => some (.port (1#1 ++ idx) data)
  | .rd idx => some (.port (0#1 ++ idx) 0)
  | .wait => some (.port (0#1 ++ 1#3) 0)
  | .look => none
  | .reset => none
  | .store _ _ => none
  | .load _ => none

/-- Decode and run; a code that names no instruction does nothing (`P_IDLE`: 30_encoding.md R97). -/
def runCode (c : Code) (s : State) : Host.Outcome State Fault Refusal :=
  match decode c with
  | .ok i => exec i s
  | .error _ => .next s

/-! ### The host -/

/-- The address is one of the `len` message bytes of the digest that runs. -/
def isMessageByte (e : Engine) (a : Nat) : Bool :=
  decide (e.msgBase.toNat ≤ a) && decide (a < e.msgBase.toNat + e.len.toNat)

/-- The address is one of the sixteen tag bytes of the latest digest. -/
def isTagByte (e : Engine) (a : Nat) : Bool :=
  decide (e.tagBase.toNat ≤ a) && decide (a < e.tagBase.toNat + 16)

/-- A host store of one byte. While a digest runs the host owes it the message, and until `STATE = DONE` is observed the tag
buffer (20_memory.md R73, 70_reset_and_hazards.md R250, R251; U7). -/
def hostStore (a : Word) (b : Byte) (s : State) : Host.Outcome State Fault Refusal :=
  if 2 ^ s.plat.addrW ≤ a.toNat then .fault .noSuchAddress
  else if isBusy s.eng && isMessageByte s.eng a.toNat then .refused .messageChanged
  else if isBusy s.eng && isTagByte s.eng a.toNat || decide (a.toNat ∈ s.tagOpen) then .refused .tagDisturbed
  else .next (putBytes a.toNat [b] s)

/-- A host load of one byte: any value where the host may not rely on memory (20_memory.md R79; U2). -/
def hostLoad (a : Word) (s : State) : Host.Outcome State Fault Refusal :=
  if 2 ^ s.plat.addrW ≤ a.toNat then .fault .noSuchAddress
  else if a.toNat ∈ s.tagOpen then .next { s with hLoad := Config.freeBits 8 s.free, free := s.free + 1 }
  else .next { s with hLoad := s.byteAt a.toNat }

/-- The host action is a write to `CMD`, held while the engine is busy (44_host_commands.md R191). -/
def isHeld (e : Engine) : HostAction → Bool
  | .wr idx _ => decide (idx = 0) && isBusy e
  | _ => false

/-- What is left of the host's actions when this one is done: `WAIT` stays while it reads `BUSY` (30_encoding.md R99). -/
def hostRest (e : Engine) (a : HostAction) (rest : List HostAction) : List HostAction :=
  if a = .wait ∧ isBusy e = true then a :: rest else rest

/-- A host action, once it may happen. -/
def hostPerform (a : HostAction) (s : State) : Host.Outcome State Fault Refusal :=
  match hostCode a with
  | some c => runCode c s
  | none =>
    match a with
    | .look => .next { observe s with hOuts := outputs s.eng }
    | .reset => .next (resetPulse s)
    | .store addr b => hostStore addr b s
    | .load addr => hostLoad addr s
    | _ => .next s

/-- The host's move: its first action. -/
def hostMove (s : State) : Host.Outcome State Fault Refusal :=
  match s.host with
  | [] => .next s
  | a :: rest => hostPerform a { s with host := hostRest s.eng a rest }

/-! ### The adapter and the platform -/

/-- The answer the adapter can give now: the next one it gives regardless, else the attached cipher's to the outstanding
request (40_cipher_adapter.md R112, R117, R120). The handle is looked up now, at the answer, and not when the request was
issued: DESIGN CHOICE (log 27). -/
def adapterAnswer (s : State) : Option Block :=
  match s.oracle with
  | r :: _ => some r
  | [] =>
    match s.encReq with
    | none => none
    | some q => (s.plat.adapter q.cap).map (fun c => c.encrypt q.block)

/-- The adapter's move: present that answer. -/
def adapterMove (s : State) : Host.Outcome State Fault Refusal :=
  match adapterAnswer s with
  | none => .next s
  | some r => .next (presentAnswer r { s with oracle := s.oracle.tail })

/-- A platform action (70_reset_and_hazards.md R246, R253). -/
def platformPerform (a : PlatformAction) (s : State) : State :=
  match a with
  | .attach h c => { s with plat := { s.plat with ciphers := (h, c) :: s.plat.ciphers.filter (fun x => x.1 != h) } }
  | .remap m => { s with plat := { s.plat with map := m } }

/-- The platform's move: its first action. -/
def platformMove (s : State) : Host.Outcome State Fault Refusal :=
  match s.platActs with
  | [] => .next s
  | a :: rest => .next (platformPerform a { s with platActs := rest })

/-! ### Who can move -/

/-- The platform serves the memory access of the engine's next step, if that step makes one (60_exceptions.md R219; U4). -/
def accessServed (s : State) : Bool :=
  match s.eng.phase with
  | .last => admitR s.plat (eaLast s.eng) s.eng.r.toNat
  | .chain => s.eng.encPend || decide (s.eng.n.toNat ≤ s.eng.i.toNat + 1) || admitR s.plat (eaBlock s.eng) 16
  | .write => admitW s.plat (eaTag s.eng) 16
  | .idle | .subkeyL | .subkeyK1 | .subkeyK2 | .count | .init | .final => true

/-- The engine has a step: not idle, not waiting for an answer that is not there (40_cipher_adapter.md R115), nor for a
memory access that is not served (60_exceptions.md R219). -/
def engineCan (s : State) : Bool :=
  s.eng.phase != .idle && (!s.eng.encPend || s.encRsp.isSome) && accessServed s

/-- The adapter has an answer to give, and the one before has been taken. -/
def adapterCan (s : State) : Bool := (adapterAnswer s).isSome && s.encRsp.isNone

/-- The host has an action and it is not held. All software agents on the port share the one list, so a held write holds every
one of them: DESIGN CHOICE (44_host_commands.md R191, 70_reset_and_hazards.md R256; log 28). -/
def hostCan (s : State) : Bool :=
  match s.host with
  | [] => false
  | a :: _ => !isHeld s.eng a

/-- The agent has a step now (00_scope.md R14); reset may fire at any time (70_reset_and_hazards.md R240). -/
def canMove (g : Agent) (s : State) : Bool :=
  match g with
  | .engine => engineCan s
  | .adapter => adapterCan s
  | .host => hostCan s
  | .platform => !s.platActs.isEmpty
  | .rst => true

/-- The step of an agent that has one. -/
def act (g : Agent) (s : State) : Host.Outcome State Fault Refusal :=
  match g with
  | .engine => runCode (engineCode s) s
  | .adapter => adapterMove s
  | .host => hostMove s
  | .platform => platformMove s
  | .rst => .next (resetPulse s)

/-- The agent's turn: an agent that is held, or has nothing to do, lets it pass (log 8). -/
def takeTurn (g : Agent) (s : State) : Host.Outcome State Fault Refusal :=
  if canMove g s then act g s else .next s

/-- The order when no turns are given (log 8): engine, adapter, host, platform. When none can move, an idle engine waits
(70_reset_and_hazards.md R245), and an engine that waits for an answer or for a memory access is stuck (40_cipher_adapter.md
R116, 60_exceptions.md R219): the run is marked so. -/
def freeRun (s : State) : Host.Outcome State Fault Refusal :=
  if canMove .engine s then act .engine s
  else if canMove .adapter s then act .adapter s
  else if canMove .host s then act .host s
  else if canMove .platform s then act .platform s
  else if s.eng.phase = .idle then .next s
  else if s.eng.encPend then .fault .adapterSilent
  else .fault .memoryUnserved

/-- One step of the machine: the next turn, or the default order. -/
def stepOf (s : State) : Host.Outcome State Fault Refusal :=
  match s.turns with
  | g :: rest => takeTurn g { s with turns := rest }
  | [] => freeRun s

/-! ### Placing an instruction where it is fetched -/

/-- Put a code where the next step fetches it: a command word or port pattern as the host's next action, a `PHASE` code as
the sequencer position of a digest that runs; and give that agent the next turn (log 18). -/
def placeCode (c : Code) (s : State) : State :=
  match c with
  | .command w => { s with host := .wr 0 w :: s.host, turns := .host :: s.turns }
  | .port p d =>
    { s with
      host := (if p.extractLsb' 3 1 = 1#1 then .wr (p.extractLsb' 0 3) d else .rd (p.extractLsb' 0 3)) :: s.host
      turns := .host :: s.turns }
  | .phase c =>
    { s with
      eng := { s.eng with status := .busy, phase := (phaseOfCode c).getD .idle }
      turns := .engine :: s.turns }

end Sys2Proof.Machine
end

