-- ==== Sys2Proof/Machine/Step.lean ====
section
/-! DEFINITION. The step function, and where an instruction is placed for it. -/

namespace Sys2Proof.Machine

/-- One atomic step of one agent (spec/00_scope.md R14). -/
def step (s : State) : Host.Outcome State Fault Refusal := stepOf s

/-- `s` with the table word `w` of `nbits` bits placed where the next step fetches it (log 17, log 18). -/
def State.withFetchWord (s : State) (nbits w : Nat) : State := placeCode (tableCode nbits w) s

end Sys2Proof.Machine
end

