-- ==== Sys2Proof/Safety.lean ====
section
/-! DEFINITION. What counts as a safe run: the invariants of spec/10_state.md R39 and those that carry them, a digest
that follows the function `CMAC`, and the trace of adapter requests a run makes. -/

namespace Sys2Proof.Machine

/-- The phases after `P_COUNT` in a digest (10_state.md R39). -/
def Phase.afterCount : Phase → Bool
  | .last | .init | .chain | .final | .write => true
  | .idle | .subkeyL | .subkeyK1 | .subkeyK2 | .count => false

/-- The phases in which an adapter transaction may be in flight (10_state.md R39). -/
def Phase.calls : Phase → Bool
  | .subkeyL | .chain | .final => true
  | .idle | .subkeyK1 | .subkeyK2 | .count | .last | .init | .write => false

/-- The invariants of the engine as 10_state.md R39 words them. -/
structure Engine.Documented (e : Engine) : Prop where
  busy_iff : e.status = .busy ↔ e.phase ≠ .idle
  pend_phase : e.encPend = true → e.phase = .subkeyL ∨ e.phase = .chain ∨ e.phase = .final
  err_iff : e.err ≠ .none ↔ e.status = .error
  n_range : e.phase.afterCount = true → 1 ≤ e.n.toNat ∧ e.n.toNat ≤ 4096
  len_eq : e.phase.afterCount = true → e.len.toNat = 16 * (e.n.toNat - 1) + e.r.toNat
  r_complete : e.phase.afterCount = true → e.flag = true → e.r.toNat = 16
  r_partial : e.phase.afterCount = true → e.flag = false → e.r.toNat ≤ 15
  r_zero : e.phase.afterCount = true → e.r.toNat = 0 → e.len.toNat = 0
  i_range : e.phase = .chain → e.i.toNat ≤ e.n.toNat - 1

/-- `N`, `FLAG`, `R` are what `COUNT` gives for `LEN` (43_mac_engine.md R155). -/
def Engine.counted (e : Engine) : Prop :=
  e.n.toNat = (count e.len.toNat).1 ∧ e.flag = (count e.len.toNat).2.1 ∧ e.r.toNat = (count e.len.toNat).2.2

/-- The invariant of the whole machine; every agent's step keeps it. -/
structure State.Inv (s : State) : Prop where
  /-- `STATE = BUSY` if and only if `PHASE ≠ P_IDLE` (10_state.md R30, R39). -/
  busy_iff : s.eng.status = .busy ↔ s.eng.phase ≠ .idle
  /-- `ERR ≠ 0` if and only if `STATE = ERROR` (R39). -/
  err_iff : s.eng.err ≠ .none ↔ s.eng.status = .error
  /-- A transaction is in flight only in a phase that calls for one (R39). -/
  pend_phase : s.eng.encPend = true → s.eng.phase.calls = true
  /-- `ENC_DST` is `L` in `P_SUBKEY_L` and `X` in the other two (40_cipher_adapter.md R114). -/
  pend_dst : s.eng.encPend = true → (s.eng.encDst = .l ↔ s.eng.phase = .subkeyL)
  /-- While the answer is awaited the request stands, and the register keeps the block sent (10_state.md R32). -/
  pend_request : s.eng.encPend = true → ∀ q, s.encReq = some q → q = ⟨s.eng.ctxCap, encReg s.eng⟩
  /-- An awaited answer is on the port, or its request is outstanding. -/
  pend_open : s.eng.encPend = true → s.encRsp = none → s.encReq ≠ none
  /-- An answer stands on the port only while it is awaited (40_cipher_adapter.md R115). -/
  rsp_pend : s.encRsp ≠ none → s.eng.encPend = true
  /-- `COUNT` holds after `P_COUNT` (43_mac_engine.md R155). -/
  counted : s.eng.phase.afterCount = true → s.eng.counted
  /-- In `P_CHAIN`, `0 ≤ I ≤ N-1` (R39). -/
  i_range : s.eng.phase = .chain → s.eng.i.toNat + 1 ≤ s.eng.n.toNat
  /-- A block is in flight in `P_CHAIN` only for `I ≤ N-2` (43_mac_engine.md R158). -/
  i_pend : s.eng.phase = .chain → s.eng.encPend = true → s.eng.i.toNat + 1 < s.eng.n.toNat
  /-- A digest runs under a context that is not null (40_cipher_adapter.md R117). -/
  busy_ctx : s.eng.status = .busy → s.eng.ctxValid = true ∧ s.eng.ctxCap ≠ 0
  /-- A digest that runs has its tag buffer apart from its message (20_memory.md R80). -/
  busy_apart : s.eng.status = .busy → overlaps s.eng.msgBase.toNat s.eng.len.toNat s.eng.tagBase.toNat = false
  /-- The buffers of a digest that runs lie inside the address space (43_mac_engine.md R169). -/
  busy_room : s.eng.status = .busy → s.eng.tagBase.toNat + 16 ≤ 2 ^ s.plat.addrW ∧
    (s.eng.len ≠ 0 → s.eng.msgBase.toNat + s.eng.len.toNat ≤ 2 ^ s.plat.addrW)
  /-- The host may not rely on the tag buffer of a digest that runs (20_memory.md R79). -/
  busy_open : s.eng.status = .busy → ∀ k, k < 16 → s.eng.tagBase.toNat + k ∈ s.tagOpen
  /-- The four address registers are `ADDR_W` bits wide (10_state.md R20). -/
  addr_width : s.eng.msgAddr.toNat < 2 ^ s.plat.addrW ∧ s.eng.tagAddr.toNat < 2 ^ s.plat.addrW ∧
    s.eng.msgBase.toNat < 2 ^ s.plat.addrW ∧ s.eng.tagBase.toNat < 2 ^ s.plat.addrW
  /-- Memory is in canonical form. -/
  mem_wf : s.mem.wf
  /-- Memory holds addresses of the space only (10_state.md R36). -/
  mem_space : ∀ c ∈ s.mem, c.1 < 2 ^ s.plat.addrW
  /-- So do the bytes left unspecified. -/
  torn_space : ∀ c ∈ s.torn, c.1 < 2 ^ s.plat.addrW

/-- The message of the digest that runs: byte `k` is at `MSG_BASE + k` (20_memory.md R61). -/
def State.message (s : State) (k : Nat) : Byte := s.byteAt (s.eng.msgBase.toNat + k)

/-- The registers hold what `CMAC(E, M)` has at this point of the sequence (43_mac_engine.md R164). -/
structure State.Tracks (E : Block → Block) (s : State) : Prop where
  answer : ∀ r, s.encRsp = some r → r = E (encReg s.eng)
  zero : s.eng.phase = .subkeyL → s.eng.encPend = true → s.eng.l = zero16
  l : s.eng.phase = .subkeyK1 → s.eng.l = E zero16
  k1 : s.eng.phase = .subkeyK2 → s.eng.k1 = dbl (E zero16)
  keys : s.eng.phase = .count ∨ s.eng.phase = .last → (s.eng.k1, s.eng.k2) = subkeys E
  last : s.eng.phase = .init ∨ s.eng.phase = .chain ∨ s.eng.phase = .final →
    s.eng.mlast = finishedLast E s.message s.eng.len.toNat
  chain : s.eng.phase = .chain → s.eng.encPend = false → s.eng.x = chainValue E s.message s.eng.i.toNat
  chainSent : s.eng.phase = .chain → s.eng.encPend = true →
    s.eng.x = chainValue E s.message s.eng.i.toNat ^^^ messageBlock s.message s.eng.i.toNat
  final : s.eng.phase = .final → s.eng.encPend = false →
    s.eng.x = chainValue E s.message (s.eng.n.toNat - 1)
  finalSent : s.eng.phase = .final → s.eng.encPend = true →
    s.eng.x = chainValue E s.message (s.eng.n.toNat - 1) ^^^ finishedLast E s.message s.eng.len.toNat
  tag : s.eng.phase = .write → s.eng.x = cmac E s.message s.eng.len.toNat

/-- The engine follows `CMAC` under the cipher its context names, if one is attached. -/
def State.Follows (s : State) : Prop :=
  ∀ c, s.plat.adapter s.eng.ctxCap = some c → s.Tracks c.encrypt

/-- Every capability conforms from here on (40_cipher_adapter.md R112, 70_reset_and_hazards.md R253): no answer but the
cipher's own, no binding or map changed. -/
def State.Conforming (s : State) : Prop := s.oracle = [] ∧ s.platActs = []

/-- A digest that has just been accepted, with its buffers admitted, a cipher that conforms, and no other agent's turn
before it ends. -/
structure State.Ready (s : State) : Prop where
  inv : s.Inv
  start : s.eng.phase = .subkeyL ∧ s.eng.encPend = false
  readable : admitR s.plat s.eng.msgBase.toNat s.eng.len.toNat = true
  writable : admitW s.plat s.eng.tagBase.toNat 16 = true
  alone : s.turns = []
  conforming : s.oracle = []

/-- The requests a step issues (40_cipher_adapter.md R114). -/
def issuedBy (s t : State) : List Request :=
  if s.eng.encPend = false ∧ t.eng.encPend = true then t.encReq.toList else []

/-- `k` steps, with the adapter requests issued on the way in their order; nothing when the run stops before. -/
def runTrace : Nat → State → Option (State × List Request)
  | 0, s => some (s, [])
  | k + 1, s =>
    match step s with
    | .next t => (runTrace k t).map (fun p => (p.1, issuedBy s t ++ p.2))
    | _ => none

/-- The `N + 1` requests of one digest (40_cipher_adapter.md R118). -/
def digestRequests (cap : Handle) (E : Block → Block) (M : Nat → Byte) (len : Nat) : List Request :=
  ⟨cap, zero16⟩ ::
    ((List.range ((count len).1 - 1)).map (fun i => ⟨cap, chainValue E M i ^^^ messageBlock M i⟩) ++
      [⟨cap, chainValue E M ((count len).1 - 1) ^^^ finishedLast E M len⟩])

end Sys2Proof.Machine
end

