-- ==== Sys2Proof/Certificates/Slice0/Obligations.lean ====
section
/-! DEFINITION. The statements about the model, each with the rule of spec/ it formalises or rests on. -/

open Sys2Proof Sys2Proof.Machine

/-! ### Encoding -/

/-- Every instruction, with every operand value, is read back from its own code (30_encoding.md R91 to R97). -/
def Obligations.DecodeReadsBackWhatEncodeWrites : Prop :=
  ∀ i : Instr, decode (encode i) = .ok i

/-- A code has one meaning: what is decoded encodes to that code again. The write data of a `RD` means nothing and comes
back as 0 (30_encoding.md R94 to R97). -/
def Obligations.EncodeGivesBackTheDecodedCode : Prop :=
  (∀ w i, decode (.command w) = .ok i → encode i = .command w) ∧
  (∀ p d i, decode (.port p d) = .ok i → encode i = .port p (if p.getLsbD 3 then d else 0)) ∧
  (∀ c i, decode (.phase c) = .ok i → encode i = .phase c)

/-- The opcode map (30_encoding.md R94) with its immediate (R93). -/
def Obligations.CommandWordsDecodeByTheOpcodeMap : Prop :=
  ∀ (w : Word) (imm : BitVec 16), imm.toNat = w.toNat / 65536 →
    (w.toNat % 65536 = 0x0001 → decode (.command w) = .ok (.setup imm)) ∧
    (w.toNat % 65536 = 0x0002 → decode (.command w) = .ok (.digest imm))

/-- A word with `OPC` other than 1 and 2 or with `RSVZ ≠ 0` is illegal; accepted, it sets `STATE` and `ERR` and changes
nothing else (30_encoding.md R95, 60_exceptions.md R215). -/
def Obligations.IllegalWordsOnlyReportAnError : Prop :=
  ∀ w : Word, (w.toNat % 256 ≠ 1 ∧ w.toNat % 256 ≠ 2) ∨ w.toNat / 256 % 256 ≠ 0 →
    (∃ e, decode (.command w) = .error e) ∧
    ∀ s : State, s.eng.status ≠ .busy →
      exec (.wr 0 w) s = .next { s with eng := { s.eng with status := .error, err := .cmd } }

/-- The worked encodings (30_encoding.md R101). -/
def Obligations.WorkedEncodingsDecodeAsStated : Prop :=
  decode (.command 0x00010001) = .ok (.setup 1) ∧ decode (.command 0x00000001) = .ok (.setup 0) ∧
  decode (.command 0x00000002) = .ok (.digest 0) ∧ decode (.command 0x00100002) = .ok (.digest 16) ∧
  decode (.command 0x00280002) = .ok (.digest 40) ∧ decode (.command 0xFFFF0002) = .ok (.digest 65535) ∧
  (∀ w ∈ [0x00000000, 0x00000003, 0x00000102, (0xFFFFFFFF : Word)], ∃ e, decode (.command w) = .error e)

/-- The nine codes of the micro-operations; under code 0 the engine performs nothing, codes 10 to 15 name nothing
(30_encoding.md R97). -/
def Obligations.PhaseCodesNameTheMicroOperations : Prop :=
  decode (.phase 0b0001) = .ok .uSubkeyL ∧ decode (.phase 0b0010) = .ok .uSubkeyK1 ∧
  decode (.phase 0b0011) = .ok .uSubkeyK2 ∧ decode (.phase 0b0100) = .ok .uCount ∧
  decode (.phase 0b0101) = .ok .uLast ∧ decode (.phase 0b0110) = .ok .uInit ∧
  decode (.phase 0b0111) = .ok .uChain ∧ decode (.phase 0b1000) = .ok .uFinal ∧
  decode (.phase 0b1001) = .ok .uWrite ∧
  (∀ s : State, runCode (.phase 0) s = .next s) ∧
  (∀ c : BitVec 4, 10 ≤ c.toNat → decode (.phase c) = .error .phaseReserved)

/-! ### Buffers and blocks -/

/-- `SHL1` byte by byte and as a number, for a buffer of any length (42_shift_and_xor.md R136). -/
def Obligations.ShiftLeftDoublesABigEndianBuffer : Prop :=
  ∀ A : List Byte, (shl1 A).length = A.length ∧
    (∀ i (h : i < A.length), (shl1 A)[i]? =
      some (((A[i] <<< 1) &&& 0xFF) ||| (if ((A[i + 1]?).getD 0).getLsbD 7 then 1 else 0))) ∧
    bufNat (shl1 A) = bufNat A * 2 % 2 ^ (8 * A.length)

/-- The loop that goes from the highest index down computes the same bytes; the carry left over is bit 7 of byte 0
(42_shift_and_xor.md R137). -/
def Obligations.ShiftLoopComputesTheShift : Prop :=
  ∀ A : List Byte, (shl1Loop A).2 = shl1 A ∧
    (shl1Loop A).1 = if ((A[0]?).getD 0).getLsbD 7 then 1 else 0

/-- The sixteen bytes of a block and the block are one thing seen twice, byte 0 most significant, and on a block `SHL1` is
the 128-bit shift by one place (00_scope.md R11, 42_shift_and_xor.md R136). -/
def Obligations.BlocksAndSixteenByteBuffersAgree : Prop :=
  (∀ b : Block, ofBytes (blockBytes b) = b ∧ bufNat (blockBytes b) = b.toNat) ∧
  (∀ bs : List Byte, bs.length = 16 → blockBytes (ofBytes bs) = bs) ∧
  (∀ b : Block, blockShl1 b = b <<< 1)

/-- `DBL` byte by byte: the test is on bit 7 of byte 0 before the shift, and only byte 15 gets the XOR with `0x87`
(41_subkey_generator.md R127). -/
def Obligations.DoublingShiftsAndReduces : Prop :=
  ∀ (a : Block) (i : Nat), i < 16 →
    blockByte (dbl a) i =
      (((blockByte a i <<< 1) ||| (if i < 15 ∧ (blockByte a (i + 1)).getLsbD 7 then 1 else 0)) ^^^
        (if i = 15 ∧ (blockByte a 0).getLsbD 7 then 0x87 else 0))

/-- `DBL` is one-to-one (41_subkey_generator.md R131). -/
def Obligations.DoublingIsOneToOne : Prop :=
  ∀ a b : Block, dbl a = dbl b → a = b

/-- The buffer XOR is byte by byte, on buffers of any equal length and on blocks (42_shift_and_xor.md R141). -/
def Obligations.XorActsOnEachByteAlone : Prop :=
  (∀ A B : List Byte, A.length = B.length → (xorBuf A B).length = A.length ∧
    ∀ i (h : i < A.length) (h' : i < B.length), (xorBuf A B)[i]? = some (A[i] ^^^ B[i])) ∧
  (∀ a b : Block, blockBytes (a ^^^ b) = xorBuf (blockBytes a) (blockBytes b))

/-- `PAD`: the bytes of the chunk, `0x80`, zeros (43_mac_engine.md R161). -/
def Obligations.PaddingPlacesOneMarkAndZeros : Prop :=
  ∀ (chunk : List Byte), chunk.length ≤ 15 → ∀ i, i < 16 →
    blockByte (pad chunk) i =
      if h : i < chunk.length then chunk[i] else if i = chunk.length then 0x80 else 0x00

/-- `COUNT` by its three cases, with the bounds and the identity (43_mac_engine.md R162). -/
def Obligations.CountGivesBlocksFlagAndRest : Prop :=
  count 0 = (1, false, 0) ∧
  (∀ len, len ≤ 65535 → len ≠ 0 → len % 16 = 0 → count len = (len / 16, true, 16)) ∧
  (∀ len, len ≤ 65535 → len % 16 ≠ 0 → count len = (len / 16 + 1, false, len % 16)) ∧
  (∀ len, len ≤ 65535 → 1 ≤ (count len).1 ∧ (count len).1 ≤ 4096 ∧ 16 * ((count len).1 - 1) ≤ 65520 ∧
    len = 16 * ((count len).1 - 1) + (count len).2.2)

/-! ### Memory and admission -/

/-- After `MemWrite` the bytes written read back and every other byte reads as before; the canonical form is kept
(20_memory.md R63, R64). So in memory itself, and so for the agents, also where a reset had left bytes unspecified. -/
def Obligations.MemoryReadsBackWhatWasWritten : Prop :=
  ∀ (m : Memory) (a : Nat) (bs : List Byte), m.wf →
    (m.writeBytes a bs).readBytes a bs.length = bs ∧
    (∀ x, x < a ∨ a + bs.length ≤ x → (m.writeBytes a bs).read x = m.read x) ∧ (m.writeBytes a bs).wf ∧
    ∀ s : State, s.mem = m → (putBytes a bs s).bytesAt a bs.length = bs ∧
      ∀ x, x < a ∨ a + bs.length ≤ x → (putBytes a bs s).byteAt x = s.byteAt x

/-- `ADDR_W` is from 1 to 32 on every platform (00_scope.md R10), and `AdmitR` and `AdmitW` are as 20_memory.md R78 says, over
the platform's map (log 2). -/
def Obligations.AdmissionAsksEveryByteOfTheRange : Prop :=
  ∀ (p : Platform) (a n : Nat),
    (1 ≤ p.addrW ∧ p.addrW ≤ 32) ∧ (admitR p a 0 = true) ∧
    (admitR p a n = true ↔ n = 0 ∨ (a + n ≤ 2 ^ p.addrW ∧
      ∀ k, k < n → ∃ r ∈ p.map, r.readable = true ∧ r.base ≤ a + k ∧ a + k < r.base + r.size)) ∧
    (admitW p a n = true ↔ n = 0 ∨ (a + n ≤ 2 ^ p.addrW ∧
      ∀ k, k < n → ∃ r ∈ p.map, r.writable = true ∧ r.base ≤ a + k ∧ a + k < r.base + r.size))

/-- The addresses that `U_CHAIN` reads for `I = 0` to `N-2`, then those that `U_LAST` reads, are the addresses of the
message, each once and in order (20_memory.md R67, 43_mac_engine.md R169). -/
def Obligations.EveryMessageByteIsReadOnce : Prop :=
  ∀ e : Engine, e.counted →
    (List.range (e.n.toNat - 1)).flatMap (fun j => addrsFrom (eaBlock { e with i := BitVec.ofNat 13 j }) 16) ++
      addrsFrom (eaLast e) e.r.toNat = addrsFrom e.msgBase.toNat e.len.toNat

/-! ### The host port and the two commands -/

/-- What `RD` puts on the port, as a number, for every index; the engine, memory and everything else stay, but for what the
host has now observed (44_host_commands.md R190, 10_state.md R22, R25). It completes in every state. Only a read of `STATUS`
that returns `STATE = DONE` gives the host the tag bytes back (20_memory.md R79, 70_reset_and_hazards.md R251; log 14). -/
def Obligations.ReadsReturnTheRegisterAndChangeNothing : Prop :=
  ∀ (s : State) (idx : BitVec 3), ∃ t : State, exec (.rd idx) s = .next t ∧
    t = { s with hRdata := t.hRdata, tagOpen := t.tagOpen } ∧
    (idx = 1 → s.eng.status = .done → t.tagOpen = []) ∧
    (idx ≠ 1 ∨ s.eng.status ≠ .done → t.tagOpen = s.tagOpen) ∧
    (idx = 1 → t.hRdata.toNat = (errCode s.eng.err).toNat * 256 + (phaseCode s.eng.phase).toNat * 16 +
      (statusCode s.eng.status).toNat) ∧
    (idx = 2 → t.hRdata = s.eng.msgAddr) ∧
    (idx = 3 → t.hRdata = s.eng.tagAddr) ∧
    (idx = 4 → t.hRdata.toNat = (if s.eng.ctxValid then 2 ^ 31 else 0) + s.eng.ctxCap.toNat) ∧
    (idx = 0 ∨ 5 ≤ idx.toNat → t.hRdata = 0)

/-- `WR` to the indices 1 to 7, in every state, also while `BUSY`: an address register takes the low `ADDR_W` bits and
nothing else changes, the operands of the running digest among it; a write to a read-only register or to an index that
names none is ignored (44_host_commands.md R190, 10_state.md R23, R26, R27). -/
def Obligations.HostWritesSetAnAddressOrAreIgnored : Prop :=
  ∀ (s : State) (d : Word),
    (∃ t : State, exec (.wr 2 d) s = .next t ∧ t = { s with eng := { s.eng with msgAddr := t.eng.msgAddr } } ∧
      t.eng.msgAddr.toNat = d.toNat % 2 ^ s.plat.addrW) ∧
    (∃ t : State, exec (.wr 3 d) s = .next t ∧ t = { s with eng := { s.eng with tagAddr := t.eng.tagAddr } } ∧
      t.eng.tagAddr.toNat = d.toNat % 2 ^ s.plat.addrW) ∧
    (∀ idx : BitVec 3, idx = 1 ∨ 4 ≤ idx.toNat → exec (.wr idx d) s = .next s)

/-- A command written while `BUSY` is held: it has not happened, and the host's turns pass with the write still first on
its list (44_host_commands.md R191). -/
def Obligations.CommandsAreHeldWhileBusy : Prop :=
  ∀ (s : State), s.eng.status = .busy →
    (∀ w, exec (.wr 0 w) s = .next s) ∧ (∀ c, exec (.setup c) s = .next s) ∧
    (∀ n, exec (.digest n) s = .next s) ∧
    (∀ w rest turns, s.host = .wr 0 w :: rest → s.turns = .host :: turns → step s = .next { s with turns := turns })

/-- A command word written while the engine is not `BUSY` is performed as the command it encodes
(44_host_commands.md R194). -/
def Obligations.AcceptedWordsRunAsTheirCommand : Prop :=
  ∀ (s : State) (w : Word) (i : Instr), s.eng.status ≠ .busy → decode (.command w) = .ok i →
    exec (.wr 0 w) s = exec i s

/-- `SETUP` (44_host_commands.md R192). It completes whenever the engine is not `BUSY`, also with the null handle. -/
def Obligations.SetupStoresTheHandleUnchecked : Prop :=
  ∀ (s : State) (cap : Handle), s.eng.status ≠ .busy →
    exec (.setup cap) s =
      .next { s with eng := { s.eng with ctxCap := cap, ctxValid := true, status := .idle, err := .none } }

/-- `DIGEST` with every check passed and no overlap latches its operands and starts (44_host_commands.md R193); from then
on the host may not rely on the sixteen bytes of the tag buffer (20_memory.md R79; the list that says so is the model's own
field, log 14). -/
def Obligations.AdmittedDigestStarts : Prop :=
  ∀ (s : State) (len : BitVec 16), s.eng.status ≠ .busy → s.eng.ctxValid = true → s.eng.ctxCap ≠ 0 →
    admitR s.plat s.eng.msgAddr.toNat len.toNat = true → admitW s.plat s.eng.tagAddr.toNat 16 = true →
    (∀ j k, j < len.toNat → k < 16 → s.eng.msgAddr.toNat + j ≠ s.eng.tagAddr.toNat + k) →
    ∃ t : State, exec (.digest len) s = .next t ∧
      t = { s with
        eng := { s.eng with
          msgBase := s.eng.msgAddr, tagBase := s.eng.tagAddr, len := len, status := .busy, err := .none,
          phase := .subkeyL }
        tagOpen := t.tagOpen } ∧
      ∀ a, a ∈ t.tagOpen ↔ a ∈ s.tagOpen ∨ (s.eng.tagAddr.toNat ≤ a ∧ a < s.eng.tagAddr.toNat + 16)

/-- The errors of a command in their order, each setting `STATE` and `ERR` and nothing else (60_exceptions.md R213, R216;
44_host_commands.md R193). -/
def Obligations.TheFirstErrorInOrderIsReported : Prop :=
  ∀ (s : State), s.eng.status ≠ .busy →
    let err := fun (c : ErrCode) =>
      Host.Outcome.next (φ := Fault) (ρ := Refusal) { s with eng := { s.eng with status := .error, err := c } }
    (∀ w, (∀ i, decode (.command w) ≠ .ok i) → exec (.wr 0 w) s = err .cmd) ∧
    ∀ len : BitVec 16,
      (s.eng.ctxValid = false → exec (.digest len) s = err .ctx) ∧
      (s.eng.ctxValid = true → s.eng.ctxCap = 0 → exec (.digest len) s = err .cap) ∧
      (s.eng.ctxValid = true → s.eng.ctxCap ≠ 0 → admitR s.plat s.eng.msgAddr.toNat len.toNat = false →
        exec (.digest len) s = err .msg) ∧
      (s.eng.ctxValid = true → s.eng.ctxCap ≠ 0 → admitR s.plat s.eng.msgAddr.toNat len.toNat = true →
        admitW s.plat s.eng.tagAddr.toNat 16 = false → exec (.digest len) s = err .out)

/-- A `DIGEST` that passes every check and whose tag buffer shares a byte with its message is refused
(70_reset_and_hazards.md R254). -/
def Obligations.OverlappingDigestIsRefused : Prop :=
  ∀ (s : State) (len : BitVec 16), s.eng.status ≠ .busy → s.eng.ctxValid = true → s.eng.ctxCap ≠ 0 →
    admitR s.plat s.eng.msgAddr.toNat len.toNat = true → admitW s.plat s.eng.tagAddr.toNat 16 = true →
    (∃ j k, j < len.toNat ∧ k < 16 ∧ s.eng.msgAddr.toNat + j = s.eng.tagAddr.toNat + k) →
    exec (.digest len) s = .refused .overlappingBuffers

/-- An instruction that brings `STATE` to `ERROR` has changed `STATE` and `ERR` alone (60_exceptions.md R216). -/
def Obligations.ErrorEntryChangesNothingElse : Prop :=
  ∀ (i : Instr) (s t : State), exec i s = .next t → s.eng.status ≠ .error → t.eng.status = .error →
    ∃ c, c ≠ .none ∧ t = { s with eng := { s.eng with status := .error, err := c } }

/-! ### The micro-operations -/

/-- `U_SUBKEY_L` (43_mac_engine.md R152): step a, and step b for any answer. -/
def Obligations.SubkeyLSendsTheZeroBlock : Prop :=
  ∀ s : State,
    (s.eng.encPend = false → exec .uSubkeyL s =
      .next { s with
        eng := { s.eng with l := 0, encDst := .l, encPend := true }
        encReq := some ⟨s.eng.ctxCap, 0⟩ }) ∧
    (∀ r, s.eng.encPend = true → s.eng.encDst = .l → s.encRsp = some r → exec .uSubkeyL s =
      .next { s with
        eng := { s.eng with l := r, encPend := false, phase := .subkeyK1 }
        encRsp := none })

/-- `U_SUBKEY_K1` and `U_SUBKEY_K2` (43_mac_engine.md R153, R154), with their examples. -/
def Obligations.SubkeysAreDoublings : Prop :=
  (∀ s : State, exec .uSubkeyK1 s =
    .next { s with eng := { s.eng with k1 := dbl s.eng.l, phase := .subkeyK2 } }) ∧
  (∀ s : State, exec .uSubkeyK2 s =
    .next { s with eng := { s.eng with k2 := dbl s.eng.k1, phase := .count } }) ∧
  dbl 0x7df76b0c1ab899b33e42f047b91b546f = 0xfbeed618357133667c85e08f7236a8de ∧
  dbl 0xfbeed618357133667c85e08f7236a8de = 0xf7ddac306ae266ccf90bc11ee46d513b

/-- `U_COUNT` (43_mac_engine.md R155): the registers hold what `COUNT(LEN)` gives, exactly, so no width cuts it. -/
def Obligations.CountFillsNFlagAndR : Prop :=
  ∀ s : State, ∃ t : State, exec .uCount s = .next t ∧
    t = { s with eng := { s.eng with n := t.eng.n, flag := t.eng.flag, r := t.eng.r, phase := .last } } ∧
    (t.eng.n.toNat, t.eng.flag, t.eng.r.toNat) = count s.eng.len.toNat

/-- `U_LAST` (43_mac_engine.md R156) on what `COUNT` can leave: a complete chunk with `K1`, a padded one with `K2`. -/
def Obligations.LastBlockTakesTheRightSubkey : Prop :=
  ∀ s : State, s.eng.n ≠ 0 → admitR s.plat (s.eng.msgBase.toNat + 16 * (s.eng.n.toNat - 1)) s.eng.r.toNat = true →
    let chunk := s.bytesAt (s.eng.msgBase.toNat + 16 * (s.eng.n.toNat - 1)) s.eng.r.toNat
    (s.eng.flag = true → s.eng.r.toNat = 16 → exec .uLast s =
      .next { s with eng := { s.eng with mlast := ofBytes chunk ^^^ s.eng.k1, phase := .init } }) ∧
    (s.eng.flag = false → s.eng.r.toNat ≤ 15 → exec .uLast s =
      .next { s with eng := { s.eng with mlast := pad chunk ^^^ s.eng.k2, phase := .init } })

/-- `U_INIT` (43_mac_engine.md R157). -/
def Obligations.InitClearsTheAccumulator : Prop :=
  ∀ s : State, exec .uInit s = .next { s with eng := { s.eng with x := 0, i := 0, phase := .chain } }

/-- `U_CHAIN` (43_mac_engine.md R158): exit step, step a, and step b for any answer. -/
def Obligations.ChainTakesBlocksInOrder : Prop :=
  ∀ s : State,
    (s.eng.encPend = false → s.eng.i.toNat + 1 = s.eng.n.toNat → exec .uChain s =
      .next { s with eng := { s.eng with phase := .final } }) ∧
    (s.eng.encPend = false → s.eng.i.toNat + 1 < s.eng.n.toNat →
      admitR s.plat (s.eng.msgBase.toNat + 16 * s.eng.i.toNat) 16 = true →
      let x := s.eng.x ^^^ ofBytes (s.bytesAt (s.eng.msgBase.toNat + 16 * s.eng.i.toNat) 16)
      exec .uChain s = .next { s with
        eng := { s.eng with x := x, encDst := .x, encPend := true }
        encReq := some ⟨s.eng.ctxCap, x⟩ }) ∧
    (∀ r, s.eng.encPend = true → s.eng.encDst = .x → s.encRsp = some r → exec .uChain s =
      .next { s with
        eng := { s.eng with x := r, encPend := false, i := s.eng.i + 1 }
        encRsp := none })

/-- `U_FINAL` (43_mac_engine.md R159): step a, and step b for any answer. -/
def Obligations.FinalSendsTheLastBlock : Prop :=
  ∀ s : State,
    (s.eng.encPend = false → exec .uFinal s =
      .next { s with
        eng := { s.eng with x := s.eng.x ^^^ s.eng.mlast, encDst := .x, encPend := true }
        encReq := some ⟨s.eng.ctxCap, s.eng.x ^^^ s.eng.mlast⟩ }) ∧
    (∀ r, s.eng.encPend = true → s.eng.encDst = .x → s.encRsp = some r → exec .uFinal s =
      .next { s with
        eng := { s.eng with x := r, encPend := false, phase := .write }
        encRsp := none })

/-- `U_WRITE` (43_mac_engine.md R160; 20_memory.md R62): tag byte `k` is at `TAG_BASE + k`, every byte outside reads as
before, `STATE` is `DONE`, the phase idle, and no other register changes. -/
def Obligations.WriteStoresTheTagAndNothingElse : Prop :=
  ∀ s : State, s.mem.wf → admitW s.plat s.eng.tagBase.toNat 16 = true →
    ∃ t : State, exec .uWrite s = .next t ∧
      t = { s with eng := { s.eng with status := .done, phase := .idle }, mem := t.mem, torn := t.torn } ∧ t.mem.wf ∧
      (∀ k, k < 16 → t.byteAt (s.eng.tagBase.toNat + k) = blockByte s.eng.x k) ∧
      (∀ a, a < s.eng.tagBase.toNat ∨ s.eng.tagBase.toNat + 16 ≤ a → t.byteAt a = s.byteAt a)

/-- Which instruction may write which register: the table of 10_state.md R20, for every instruction that answers a next
state. `ENC_DST` is as R114 of 40_cipher_adapter.md leaves it. A command is one of `SETUP`, `DIGEST`, `WR` to index 0. -/
def Obligations.RegistersAreWrittenOnlyByTheirWriters : Prop :=
  ∀ (i : Instr) (s t : State), exec i s = .next t →
    (s.eng.encPend = true → (i = .uSubkeyL → s.eng.encDst = .l) ∧ (i = .uChain ∨ i = .uFinal → s.eng.encDst = .x)) →
    let setup := (∃ c, i = .setup c) ∨ ∃ w, i = .wr 0 w
    let digest := (∃ n, i = .digest n) ∨ ∃ w, i = .wr 0 w
    let calls := i = .uSubkeyL ∨ i = .uChain ∨ i = .uFinal
    (i ≠ .uSubkeyL → t.eng.l = s.eng.l) ∧
    (i ≠ .uSubkeyK1 → t.eng.k1 = s.eng.k1) ∧
    (i ≠ .uSubkeyK2 → t.eng.k2 = s.eng.k2) ∧
    (i ≠ .uLast → t.eng.mlast = s.eng.mlast) ∧
    (i ≠ .uInit → i ≠ .uChain → i ≠ .uFinal → t.eng.x = s.eng.x) ∧
    (¬ setup → t.eng.ctxValid = s.eng.ctxValid ∧ t.eng.ctxCap = s.eng.ctxCap) ∧
    ((∀ w, i ≠ .wr 2 w) → t.eng.msgAddr = s.eng.msgAddr) ∧
    ((∀ w, i ≠ .wr 3 w) → t.eng.tagAddr = s.eng.tagAddr) ∧
    (¬ setup → ¬ digest → i ≠ .uWrite → t.eng.status = s.eng.status) ∧
    (¬ setup → ¬ digest → t.eng.err = s.eng.err) ∧
    (¬ digest → t.eng.msgBase = s.eng.msgBase ∧ t.eng.tagBase = s.eng.tagBase ∧ t.eng.len = s.eng.len) ∧
    (i ≠ .uCount → t.eng.n = s.eng.n ∧ t.eng.flag = s.eng.flag ∧ t.eng.r = s.eng.r) ∧
    (i ≠ .uInit → i ≠ .uChain → t.eng.i = s.eng.i) ∧
    (¬ calls → t.eng.encPend = s.eng.encPend ∧ t.eng.encDst = s.eng.encDst ∧ t.encReq = s.encReq ∧
      t.encRsp = s.encRsp) ∧
    ((∃ x, i = .rd x) ∨ (∃ x w, x ≠ 0 ∧ i = .wr x w) ∨ (∃ c, i = .setup c) → t.eng.phase = s.eng.phase) ∧
    ((∀ x, i ≠ .rd x) → t.hRdata = s.hRdata)

/-- No instruction but `U_WRITE` changes a byte of memory, and none touches the platform or what another agent holds
(20_memory.md R68). -/
def Obligations.OtherInstructionsLeaveMemoryAlone : Prop :=
  ∀ (i : Instr) (s t : State), exec i s = .next t →
    (i ≠ .uWrite → ∀ a, t.byteAt a = s.byteAt a) ∧
    t.plat = s.plat ∧ t.host = s.host ∧ t.oracle = s.oracle ∧ t.platActs = s.platActs ∧ t.turns = s.turns ∧
    t.hLoad = s.hLoad ∧ t.hOuts = s.hOuts ∧ t.free = s.free

/-- A memory access that the platform does not serve (60_exceptions.md R219; U4). The micro-operation has no step, which is a
fault when it is asked for one (log 19). The machine does not ask: at the engine's turn the engine stays as it is, a reset of
the host's still ends the digest, and the run is marked stuck only when nobody else has anything to do. -/
def Obligations.UnservedAccessesStopTheEngine : Prop :=
  ∀ s : State,
    (s.eng.n ≠ 0 → admitR s.plat (eaLast s.eng) s.eng.r.toNat = false → exec .uLast s = .fault .memoryUnserved) ∧
    (s.eng.encPend = false → s.eng.i.toNat + 1 < s.eng.n.toNat → admitR s.plat (eaBlock s.eng) 16 = false →
      exec .uChain s = .fault .memoryUnserved) ∧
    (admitW s.plat (eaTag s.eng) 16 = false → exec .uWrite s = .fault .memoryUnserved) ∧
    (s.eng.encPend = false →
      (s.eng.phase = .last ∧ admitR s.plat (eaLast s.eng) s.eng.r.toNat = false) ∨
      (s.eng.phase = .chain ∧ s.eng.i.toNat + 1 < s.eng.n.toNat ∧ admitR s.plat (eaBlock s.eng) 16 = false) ∨
      (s.eng.phase = .write ∧ admitW s.plat (eaTag s.eng) 16 = false) →
      (∀ turns, s.turns = .engine :: turns → step s = .next { s with turns := turns }) ∧
      (s.turns = [] → s.encReq = none → s.oracle = [] →
        (∀ rest, s.host = .reset :: rest → ∃ t, step s = .next t ∧ t.eng.status = .idle ∧ t.host = rest) ∧
        (s.host = [] → s.platActs = [] → step s = .fault .memoryUnserved)))

/-! ### The adapter -/

/-- The adapter's turn with a request outstanding and a cipher attached: the answer on the port is that cipher's block
function of the block sent (40_cipher_adapter.md R112, R113). That it is the cipher attached at this step, whatever was
attached when the request was issued, is the model's choice (log 27). -/
def Obligations.TheAttachedCipherAnswersTheRequest : Prop :=
  ∀ (s : State) (q : Request) (c : Cipher) (turns : List Agent), s.turns = .adapter :: turns → s.oracle = [] →
    s.eng.encPend = true → s.encRsp = none → s.encReq = some q → s.plat.adapter q.cap = some c →
    step s = .next { s with turns := turns, encReq := none, encRsp := some (c.encrypt q.block) }

/-- An answer presented while `ENC_PEND = 0` is ignored by the engine: whatever the adapter does at its turn, the engine,
its port and memory stay (40_cipher_adapter.md R115). -/
def Obligations.AnswersNotAwaitedAreIgnored : Prop :=
  ∀ (s t : State) (turns : List Agent), s.turns = .adapter :: turns → s.eng.encPend = false → step s = .next t →
    t.eng = s.eng ∧ t.encRsp = s.encRsp ∧ t.mem = s.mem

/-- While an answer is awaited and not there, no step but reset changes the engine's sequencer position, the register the
transaction works on, or `STATE` (40_cipher_adapter.md R115, 10_state.md R32). -/
def Obligations.TheEngineIsHeldUntilTheAnswer : Prop :=
  ∀ s t : State, s.Inv → s.eng.encPend = true → s.encRsp = none → step s = .next t →
    (t.eng.encPend = true ∧ t.eng.status = .busy ∧ t.eng.phase = s.eng.phase ∧ t.eng.encDst = s.eng.encDst ∧
      encReg t.eng = encReg s.eng) ∨
    (t.eng.status = .idle ∧ t.eng.phase = .idle ∧ t.eng.encPend = false)

/-- With nothing attached under the handle, nothing else to give an answer, and nobody else with anything to do, the engine
is stuck where it waits (40_cipher_adapter.md R116, R117). The handle is looked up at this step (log 27). -/
def Obligations.AnUnattachedHandleLeavesTheEngineStuck : Prop :=
  ∀ s : State, s.Inv → s.eng.encPend = true → s.encRsp = none → s.oracle = [] → s.turns = [] → s.host = [] →
    s.platActs = [] → s.plat.adapter s.eng.ctxCap = none → step s = .fault .adapterSilent

/-! ### Reset -/

/-- The values 10_state.md R37 gives, and what the host reads and sees after reset. In every state the level outputs are those
of R34, and a host that looks sees them; only a look at `STATE = DONE` gives it the tag bytes back (20_memory.md R72 (d);
log 14). -/
def Obligations.ResetStateIsAsDocumented : Prop :=
  State.reset.eng.ctxValid = false ∧ State.reset.eng.ctxCap = 0 ∧ State.reset.eng.msgAddr = 0 ∧
  State.reset.eng.tagAddr = 0 ∧ State.reset.eng.status = .idle ∧ State.reset.eng.err = .none ∧
  State.reset.eng.phase = .idle ∧ State.reset.eng.encPend = false ∧
  readReg State.reset.eng 1 = 0x00000000 ∧ readReg State.reset.eng 4 = 0x00000000 ∧
  outputs State.reset.eng = ⟨false, true, false⟩ ∧
  (∀ e : Engine, ((outputs e).busy = true ↔ e.status = .busy) ∧ ((outputs e).cmdReady = true ↔ e.status ≠ .busy) ∧
    ((outputs e).done = true ↔ e.status = .done ∨ e.status = .error)) ∧
  ∀ (s : State) (rest : List HostAction) (turns : List Agent), s.host = .look :: rest → s.turns = .host :: turns →
    ∃ t : State, step s = .next t ∧
      t = { s with host := rest, turns := turns, hOuts := outputs s.eng, tagOpen := t.tagOpen } ∧
      (s.eng.status = .done → t.tagOpen = []) ∧ (s.eng.status ≠ .done → t.tagOpen = s.tagOpen)

/-- The reset input, at any moment: the registers R37 names take their values whatever they held, memory and ciphers stay,
no request is made, and the host still holds its actions (70_reset_and_hazards.md R240 to R242). That an answer not yet taken
is dropped and a request stands is the model's choice (log 10). Every byte reads as before but the tag bytes of a digest that
ran, of which nothing is said (R243), as of every other register. -/
def Obligations.ResetInputRestoresTheEngine : Prop :=
  ∀ (s : State) (turns : List Agent), s.turns = .rst :: turns → ∃ t : State, step s = .next t ∧
    t.eng.ctxValid = false ∧ t.eng.ctxCap = 0 ∧ t.eng.msgAddr = 0 ∧ t.eng.tagAddr = 0 ∧ t.eng.status = .idle ∧
    t.eng.err = .none ∧ t.eng.phase = .idle ∧ t.eng.encPend = false ∧ t.encRsp = none ∧
    t.mem = s.mem ∧ t.plat = s.plat ∧ t.encReq = s.encReq ∧ t.host = s.host ∧ t.turns = turns ∧
    ∀ a, ¬ (s.eng.status = .busy ∧ s.eng.tagBase.toNat ≤ a ∧ a < s.eng.tagBase.toNat + 16) → t.byteAt a = s.byteAt a

/-- A command write held when reset fires is accepted after it, against the reset state; a `DIGEST` so reports `E_CTX`
(70_reset_and_hazards.md R244). -/
def Obligations.AHeldDigestMeetsTheResetState : Prop :=
  ∀ (s : State) (w : Word) (rest : List HostAction) (turns : List Agent), s.eng.status = .busy →
    s.host = .wr 0 w :: rest → s.turns = .rst :: .host :: turns →
    ∃ t : State, step s = .next t ∧ t.eng.status = .idle ∧ t.eng.ctxValid = false ∧ t.host = s.host ∧
      step t = exec (.wr 0 w) { t with host := rest, turns := turns } ∧
      ∀ len, decode (.command w) = .ok (.digest len) →
        step t = .next { t with
          host := rest, turns := turns, eng := { t.eng with status := .error, err := .ctx } }

/-! ### The step -/

/-- At the engine's turn the step is the micro-operation its `PHASE` code decodes to (10_state.md R30). -/
def Obligations.AnEngineStepRunsTheDecodedPhase : Prop :=
  ∀ (s : State) (i : Instr) (turns : List Agent), s.turns = .engine :: turns → engineCan s = true →
    decode (.phase (phaseCode s.eng.phase)) = .ok i → step s = exec i { s with turns := turns }

/-- At the host's turn the step is the transaction on its port (30_encoding.md R96), which leaves its list; a command write
that is held is not run, and a `WAIT` that reads `BUSY` stays (R99). -/
def Obligations.AHostStepRunsTheDecodedTransaction : Prop :=
  ∀ (s : State) (a : HostAction) (c : Code) (i : Instr) (rest : List HostAction) (turns : List Agent),
    s.turns = .host :: turns → s.host = a :: rest → isHeld s.eng a = false → hostCode a = some c → decode c = .ok i →
    step s = exec i { s with turns := turns, host := hostRest s.eng a rest }

/-- With no command and no other agent's step, an idle engine waits (70_reset_and_hazards.md R245). -/
def Obligations.AnIdleEngineWaitsForACommand : Prop :=
  ∀ s : State, s.eng.phase = .idle → s.turns = [] → s.host = [] → s.oracle = [] → s.encReq = none → s.platActs = [] →
    step s = .next s

/-! ### Invariants and whole-machine rules -/

/-- The state after reset meets the invariant. -/
def Obligations.ResetMeetsTheInvariant : Prop := State.reset.Inv

/-- Every step of every agent keeps the invariant. -/
def Obligations.EveryStepKeepsTheInvariant : Prop :=
  ∀ s t : State, s.Inv → step s = .next t → t.Inv

/-- The invariants of 10_state.md R39, before and after every step. -/
def Obligations.TheDocumentedInvariantsHold : Prop :=
  ∀ s : State, s.Inv → s.eng.Documented ∧ ∀ t : State, step s = .next t → t.eng.Documented

/-- Every change of `STATE` (44_host_commands.md R198): to `IDLE` by `SETUP` or reset, to `BUSY` by an accepted `DIGEST`, to
`DONE` by `U_WRITE`, to `ERROR` by a `DIGEST` refused (`ERR` 1 to 4) or an illegal word (`ERR` 8). -/
def Obligations.StateChangesOnlyAsTabled : Prop :=
  ∀ s t : State, s.Inv → step s = .next t → t.eng.status ≠ s.eng.status →
    (t.eng.status = .idle ∧ t.eng.ctxValid = false) ∨
    (t.eng.status = .done ∧ s.eng.status = .busy ∧ s.eng.phase = .write) ∨
    (s.eng.status ≠ .busy ∧ ∃ w rest, s.host = .wr 0 w :: rest ∧
      ((t.eng.status = .idle ∧ ∃ c, decode (.command w) = .ok (.setup c)) ∨
       (t.eng.status = .busy ∧ ∃ n, decode (.command w) = .ok (.digest n)) ∨
       (t.eng.status = .error ∧
         (((∃ n, decode (.command w) = .ok (.digest n)) ∧ t.eng.err ∈ [.ctx, .cap, .msg, .out]) ∨
          ((∃ e, decode (.command w) = .error e) ∧ t.eng.err = .cmd)))))

/-- While a digest runs its context and its latched operands do not change, whoever moves, unless reset ends it
(10_state.md R22, R29; 44_host_commands.md R200). -/
def Obligations.ARunningDigestKeepsItsOperands : Prop :=
  ∀ s t : State, s.Inv → s.eng.status = .busy → step s = .next t →
    (t.eng.ctxValid = s.eng.ctxValid ∧ t.eng.ctxCap = s.eng.ctxCap ∧ t.eng.msgBase = s.eng.msgBase ∧
      t.eng.tagBase = s.eng.tagBase ∧ t.eng.len = s.eng.len ∧ t.eng.err = .none) ∨
    (t.eng.status = .idle ∧ t.eng.ctxValid = false)

/-- A step that changes a byte of memory is `U_WRITE` at one of the sixteen tag bytes, a store of the host's at that very
byte, or a reset that leaves a tag byte of the digest it ends unspecified (70_reset_and_hazards.md R243); and no step that is
made while a digest runs changes a byte of its message (20_memory.md R68, R73). -/
def Obligations.MemoryChangesOnlyByTagWriteOrHostStore : Prop :=
  ∀ (s t : State) (a : Nat), s.Inv → step s = .next t → t.byteAt a ≠ s.byteAt a →
    ((s.eng.phase = .write ∧ s.eng.tagBase.toNat ≤ a ∧ a < s.eng.tagBase.toNat + 16) ∨
     (∃ x b rest, s.host = .store x b :: rest ∧ a = x.toNat) ∨
     (s.eng.status = .busy ∧ t.eng.status = .idle ∧ t.eng.ctxValid = false ∧
       s.eng.tagBase.toNat ≤ a ∧ a < s.eng.tagBase.toNat + 16)) ∧
    ¬ (s.eng.status = .busy ∧ s.eng.msgBase.toNat ≤ a ∧ a < s.eng.msgBase.toNat + s.eng.len.toNat)

/-- A host store to a message byte of a digest that runs is refused, and so is one to a tag byte until `STATE = DONE` has been
observed (20_memory.md R73, R79, 70_reset_and_hazards.md R250, R251; U7). That every other store below 2^`ADDR_W` happens is
the model's choice (log 24); it changes that byte alone. -/
def Obligations.StoresAgainstTheHostsDutyAreRefused : Prop :=
  ∀ (s : State) (x : Word) (b : Byte) (rest : List HostAction) (turns : List Agent),
    x.toNat < 2 ^ s.plat.addrW → s.host = .store x b :: rest → s.turns = .host :: turns →
    (s.eng.status = .busy → isMessageByte s.eng x.toNat = true → step s = .refused .messageChanged) ∧
    (¬ (s.eng.status = .busy ∧ isMessageByte s.eng x.toNat = true) →
      ((s.eng.status = .busy ∧ isTagByte s.eng x.toNat = true) ∨ x.toNat ∈ s.tagOpen →
        step s = .refused .tagDisturbed) ∧
      (¬ (s.eng.status = .busy ∧ isTagByte s.eng x.toNat = true) → x.toNat ∉ s.tagOpen → s.mem.wf →
        ∃ t : State, step s = .next t ∧
          t = { s with host := rest, turns := turns, mem := t.mem, torn := t.torn } ∧ t.mem.wf ∧
          t.byteAt x.toNat = b ∧ ∀ a, a ≠ x.toNat → t.byteAt a = s.byteAt a))

/-- Once the host has read `STATE = DONE`, a load of a tag byte gives the byte that is there, not a free value
(20_memory.md R72 (d)), and a store to it is no longer refused (70_reset_and_hazards.md R251). That the host's own path to
memory then lets the store happen is the model's choice (log 24). -/
def Obligations.TheTagIsVisibleOnceDoneIsRead : Prop :=
  ∀ (s : State) (x : Word), s.eng.status = .done → isTagByte s.eng x.toNat = true → x.toNat < 2 ^ s.plat.addrW →
    ∃ t : State, exec (.rd 1) s = .next t ∧ hostLoad x t = .next { t with hLoad := s.byteAt x.toNat } ∧
      ∀ b, hostStore x b t = .next (putBytes x.toNat [b] t)

/-! ### The digest as a whole -/

/-- A digest that follows `CMAC` goes on following it at every step of every agent, in any interleaving, with capabilities
that conform (43_mac_engine.md R164, by the order of R151). -/
def Obligations.EveryStepFollowsCmac : Prop :=
  ∀ s t : State, s.Inv → s.Conforming → s.Follows → step s = .next t → t.Follows

/-- When it ends, in any interleaving, the sixteen bytes at `TAG_BASE` are `CMAC(E, M)`, every other byte of memory, `CTX`,
`MSG_ADDR` and `TAG_ADDR` are as they were, and `ERR` is 0 (43_mac_engine.md R164). -/
def Obligations.AFinishedDigestWroteCmac : Prop :=
  ∀ (s t : State) (c : Cipher), s.Inv → s.Follows → s.plat.adapter s.eng.ctxCap = some c → step s = .next t →
    s.eng.status = .busy → t.eng.status = .done →
    t.bytesAt s.eng.tagBase.toNat 16 = blockBytes (cmac c.encrypt s.message s.eng.len.toNat) ∧
    (∀ a, a < s.eng.tagBase.toNat ∨ s.eng.tagBase.toNat + 16 ≤ a → t.byteAt a = s.byteAt a) ∧
    t.eng.ctxValid = s.eng.ctxValid ∧ t.eng.ctxCap = s.eng.ctxCap ∧ t.eng.msgAddr = s.eng.msgAddr ∧
    t.eng.tagAddr = s.eng.tagAddr ∧ t.eng.err = .none

/-- An accepted digest whose adapter and memory answer, left alone (log 8), is done after `2*N + 9` steps of the engine and `N + 1`
answers of the adapter, its tag is `CMAC(E, M)`, and `CTX`, `MSG_ADDR`, `TAG_ADDR` and every other byte are as they were
(43_mac_engine.md R164, 70_reset_and_hazards.md R264). -/
def Obligations.AnAcceptedDigestEndsWithItsTag : Prop :=
  ∀ (s : State) (c : Cipher), s.Ready → s.plat.adapter s.eng.ctxCap = some c →
    ∃ t : State,
      Host.Core.run Sys2Proof.core ((2 * (count s.eng.len.toNat).1 + 9) + ((count s.eng.len.toNat).1 + 1)) s = .next t ∧
      t.eng.status = .done ∧ t.eng.err = .none ∧ t.eng.ctxValid = s.eng.ctxValid ∧ t.eng.ctxCap = s.eng.ctxCap ∧
      t.eng.msgAddr = s.eng.msgAddr ∧ t.eng.tagAddr = s.eng.tagAddr ∧
      t.bytesAt s.eng.tagBase.toNat 16 = blockBytes (cmac c.encrypt s.message s.eng.len.toNat) ∧
      (∀ a, a < s.eng.tagBase.toNat ∨ s.eng.tagBase.toNat + 16 ≤ a → t.byteAt a = s.byteAt a)

/-- On the way, served and left alone (log 8), it makes exactly the `N + 1` requests of 40_cipher_adapter.md R118, in that
order. -/
def Obligations.AnAcceptedDigestMakesItsRequestsInOrder : Prop :=
  ∀ (s : State) (c : Cipher), s.Ready → s.plat.adapter s.eng.ctxCap = some c →
    ∃ t : State, t.eng.status = .done ∧
      runTrace ((2 * (count s.eng.len.toNat).1 + 9) + ((count s.eng.len.toNat).1 + 1)) s =
        some (t, digestRequests s.eng.ctxCap c.encrypt s.message s.eng.len.toNat)

/-- Two digests of equal messages under the same cipher, each served and left alone, write equal tags, at whatever addresses
and with whatever else the registers and memory hold (44_host_commands.md R199). Left alone is `Ready`'s empty list of turns,
so the run is the model's default order (log 8). -/
def Obligations.EqualMessagesGetEqualTags : Prop :=
  ∀ (s s' : State) (c : Cipher), s.Ready → s'.Ready → s.plat.adapter s.eng.ctxCap = some c →
    s'.plat.adapter s'.eng.ctxCap = some c → s'.eng.len = s.eng.len →
    (∀ k, k < s.eng.len.toNat → s'.message k = s.message k) →
    ∃ t t' : State, ∃ k : Nat, Host.Core.run Sys2Proof.core k s = .next t ∧ Host.Core.run Sys2Proof.core k s' = .next t' ∧
      t.eng.status = .done ∧ t'.eng.status = .done ∧
      t'.bytesAt s'.eng.tagBase.toNat 16 = t.bytesAt s.eng.tagBase.toNat 16
end

