-- ==== Sys2Proof/Laws/Cmac.lean ====
section
/-! SUPPORT. The function `CMAC` reads the bytes of its message and no others, and what `U_LAST` and `U_CHAIN` read from
memory is its last chunk and its blocks. -/

namespace Sys2Proof.Machine

variable {E : Block → Block} {M M' : Nat → Byte} {len : Nat} {s : State}

/-- The blocks before the last one and the last chunk make up the message (43_mac_engine.md R162). -/
theorem count_splits (len : Nat) : 16 * ((count len).1 - 1) + (count len).2.2 = len := by
  unfold count
  split
  · simp [*]
  · split <;> simp <;> omega

theorem messageBlock_congr {j : Nat} (h : ∀ k, k < 16 → M (16 * j + k) = M' (16 * j + k)) :
    messageBlock M j = messageBlock M' j := by
  simp only [messageBlock]
  congr 1
  exact List.map_congr_left (fun k hk => h k (by simpa using hk))

theorem chainValue_congr : ∀ {i : Nat}, (∀ k, k < 16 * i → M k = M' k) → chainValue E M i = chainValue E M' i
  | 0, _ => rfl
  | i + 1, h => by
    simp only [chainValue]
    rw [chainValue_congr (i := i) (fun k hk => h k (by omega)), messageBlock_congr (fun k hk => h _ (by omega))]

theorem lastChunk_congr (h : ∀ k, k < len → M k = M' k) : lastChunk M len = lastChunk M' len := by
  have hs := count_splits len
  refine List.map_congr_left (fun k hk => h _ ?_)
  have hk' : k < (count len).2.2 := by simpa using hk
  omega

theorem finishedLast_congr (h : ∀ k, k < len → M k = M' k) : finishedLast E M len = finishedLast E M' len := by
  simp only [finishedLast, lastChunk_congr h]

/-- Messages that agree on their `len` bytes have one tag. -/
theorem cmac_congr (h : ∀ k, k < len → M k = M' k) : cmac E M len = cmac E M' len := by
  have hs := count_splits len
  simp only [cmac, finishedLast_congr h]
  rw [chainValue_congr (fun k hk => h k (by omega))]

/-- What `U_CHAIN` reads is the message block. -/
theorem bytesAt_block (i : Nat) :
    ofBytes (s.bytesAt (s.eng.msgBase.toNat + 16 * i) 16) = messageBlock s.message i := by
  simp only [messageBlock, State.bytesAt, State.message, Nat.add_assoc]

/-- What `U_LAST` reads is the last chunk. -/
theorem bytesAt_lastChunk (h : s.eng.counted) :
    s.bytesAt (eaLast s.eng) s.eng.r.toNat = lastChunk s.message s.eng.len.toNat := by
  simp only [eaLast, lastChunk, State.bytesAt, State.message, h.1, h.2.2, Nat.add_assoc]

/-! ### Traces -/

variable {t u : State}

theorem runTrace_one (h : step s = .next t) : runTrace 1 s = some (t, issuedBy s t) := by
  simp [runTrace, h]

/-- Two runs one after the other. -/
theorem runTrace_add {a b : Nat} {l r : List Request} (h : runTrace a s = some (t, l))
    (g : runTrace b t = some (u, r)) : runTrace (a + b) s = some (u, l ++ r) := by
  induction a generalizing s l with
  | zero =>
    obtain ⟨rfl, rfl⟩ := Prod.mk.inj (Option.some.inj h)
    simpa using g
  | succ a ih =>
    rw [Nat.succ_add]
    simp only [runTrace] at h ⊢
    split at h
    · simp only [Option.map_eq_some_iff] at h
      obtain ⟨⟨p, q⟩, h1, h2⟩ := h
      obtain ⟨rfl, rfl⟩ := Prod.mk.inj h2
      simp [ih h1]
    · cases h

/-- A trace is a run of the machine. -/
theorem run_of_runTrace {k : Nat} {l : List Request} (h : runTrace k s = some (t, l)) :
    Host.Core.run Sys2Proof.core k s = .next t := by
  induction k generalizing s l with
  | zero =>
    obtain ⟨rfl, rfl⟩ := Prod.mk.inj (Option.some.inj h)
    rfl
  | succ k ih =>
    simp only [runTrace] at h
    split at h
    · rename_i hv
      simp only [Option.map_eq_some_iff] at h
      obtain ⟨⟨p, q⟩, h1, h2⟩ := h
      obtain ⟨rfl, rfl⟩ := Prod.mk.inj h2
      simp only [Host.Core.run, core]
      rw [hv]
      exact ih h1
    · cases h

end Sys2Proof.Machine
end

