-- ==== Sys2Proof/Laws/Memory.lean ====
section
/-! SUPPORT. Memory: what one write does to a read, and that every memory operation keeps the canonical form. -/

namespace Sys2Proof.Machine

namespace Memory

variable {m : Memory} {a x : Nat} {b : Byte}

@[simp] theorem read_nil (a : Nat) : Memory.read [] a = Config.unlistedByte := rfl

theorem read_cons (c : Host.Cell) (m : Memory) (a : Nat) :
    Memory.read (c :: m) a = if c.1 = a then c.2 else Memory.read m a := rfl

/-- An address below every listed one is unlisted. -/
theorem read_of_lt (h : ∀ c ∈ m, a < c.1) : m.read a = Config.unlistedByte := by
  induction m with
  | nil => rfl
  | cons c m ih =>
    have hc := h c (by simp)
    rw [read_cons, if_neg (by omega)]
    exact ih fun d hd => h d (by simp [hd])

theorem wf_nil : Memory.wf [] := by simp [Memory.wf]

/-- The form of a list from that of its tail. -/
theorem wf_cons {c : Host.Cell} :
    Memory.wf (c :: m) ↔ (∀ d ∈ m, c.1 < d.1) ∧ c.2 ≠ Config.unlistedByte ∧ m.wf := by
  simp only [Memory.wf, List.pairwise_cons, List.mem_cons, forall_eq_or_imp]
  tauto

/-- Every cell of a written memory is the new one or an old one. -/
theorem mem_write {c : Host.Cell} (h : c ∈ m.write a b) : c = (a, b) ∨ c ∈ m := by
  induction m with
  | nil => unfold Memory.write at h; split at h <;> simp_all
  | cons d m ih =>
    obtain ⟨x, e⟩ := d
    unfold Memory.write at h
    split at h
    · split at h
      · exact .inr h
      · simpa using h
    · split at h
      · split at h
        · exact .inr (by simp [h])
        · rcases List.mem_cons.mp h with h | h
          · exact .inl h
          · exact .inr (by simp [h])
      · rcases List.mem_cons.mp h with h | h
        · exact .inr (by simp [h])
        · rcases ih h with h | h
          · exact .inl h
          · exact .inr (by simp [h])

/-- A write keeps the canonical form. -/
theorem wf_write (h : m.wf) : (m.write a b).wf := by
  induction m with
  | nil => unfold Memory.write; split <;> simp_all [Memory.wf]
  | cons d m ih =>
    obtain ⟨x, e⟩ := d
    obtain ⟨hx, he, hm⟩ := wf_cons.mp h
    unfold Memory.write
    split
    · rename_i hlt
      split
      · exact h
      · rename_i hb
        refine wf_cons.mpr ⟨?_, hb, h⟩
        intro c hc
        rcases List.mem_cons.mp hc with rfl | hc
        · exact hlt
        · exact lt_trans hlt (hx c hc)
    · rename_i hlt
      split
      · rename_i hax
        split
        · exact hm
        · rename_i hb
          exact wf_cons.mpr ⟨fun c hc => hax ▸ hx c hc, hb, hm⟩
      · rename_i hax
        refine wf_cons.mpr ⟨?_, he, ih hm⟩
        intro c hc
        rcases mem_write hc with rfl | hc
        · show x < a
          omega
        · exact hx c hc

/-- A read after a write of one byte. -/
theorem read_write (h : m.wf) : (m.write a b).read x = if x = a then b else m.read x := by
  induction m with
  | nil =>
    unfold Memory.write
    split
    · rename_i hb
      split <;> simp [hb]
    · simp only [read_cons, read_nil, eq_comm (a := a)]
  | cons d m ih =>
    obtain ⟨y, e⟩ := d
    obtain ⟨hy, he, hm⟩ := wf_cons.mp h
    unfold Memory.write
    split
    · rename_i hlt
      have hall : ∀ c ∈ (y, e) :: m, a < c.1 := by
        intro c hc
        rcases List.mem_cons.mp hc with rfl | hc
        · exact hlt
        · exact lt_trans hlt (hy c hc)
      split
      · rename_i hb
        split
        · rename_i hx
          rw [hx, hb, read_of_lt hall]
        · rfl
      · rw [read_cons]
        simp only [eq_comm (a := a)]
    · split
      · rename_i hlt hay
        subst hay
        split
        · rename_i hb
          split
          · rename_i hx
            rw [hx, hb, read_of_lt hy]
          · rename_i hx
            rw [read_cons, if_neg (fun h => hx h.symm)]
        · simp only [read_cons, eq_comm (a := a)]
          split <;> rfl
      · rename_i hlt hay
        rw [read_cons, ih hm, read_cons]
        split
        · rename_i hyx
          rw [if_neg (by intro hxa; simp only at hyx; omega)]
        · rfl

/-- A write of several bytes keeps the canonical form. -/
theorem wf_writeBytes {bs : List Byte} (h : m.wf) : (m.writeBytes a bs).wf := by
  induction bs generalizing m a with
  | nil => exact h
  | cons b bs ih => exact ih (wf_write h)

/-- A write of several bytes adds only cells inside the range. -/
theorem mem_writeBytes {bs : List Byte} {c : Host.Cell} (h : c ∈ m.writeBytes a bs) :
    c ∈ m ∨ (a ≤ c.1 ∧ c.1 < a + bs.length) := by
  induction bs generalizing m a with
  | nil => exact .inl h
  | cons b bs ih =>
    rcases ih h with h | h
    · rcases mem_write h with rfl | h
      · exact .inr ⟨le_refl _, by simp⟩
      · exact .inl h
    · simp only [List.length_cons]
      exact .inr ⟨by omega, by omega⟩

/-- A read outside a write of several bytes. -/
theorem read_writeBytes_outside {bs : List Byte} (h : m.wf) (hx : x < a ∨ a + bs.length ≤ x) :
    (m.writeBytes a bs).read x = m.read x := by
  induction bs generalizing m a with
  | nil => rfl
  | cons b bs ih =>
    simp only [List.length_cons] at hx
    rw [Memory.writeBytes, ih (wf_write h) (by omega), read_write h, if_neg (by omega)]

/-- A read inside it. -/
theorem read_writeBytes_inside {bs : List Byte} (h : m.wf) {k : Nat} (hk : k < bs.length) :
    (m.writeBytes a bs).read (a + k) = bs[k] := by
  induction bs generalizing m a k with
  | nil => simp at hk
  | cons b bs ih =>
    rw [Memory.writeBytes]
    cases k with
    | zero => rw [read_writeBytes_outside (wf_write h) (by omega), read_write h, if_pos (by omega)]; rfl
    | succ k =>
      have := ih (m := m.write a b) (a := a + 1) (k := k) (wf_write h) (by simpa using hk)
      rw [show a + (k + 1) = a + 1 + k by omega, this]
      rfl

/-- In canonical form the listed byte is what is read. -/
theorem read_of_mem {c : Host.Cell} (h : m.wf) (hc : c ∈ m) : m.read c.1 = c.2 := by
  induction m with
  | nil => simp at hc
  | cons d m ih =>
    obtain ⟨hd, he, hm⟩ := wf_cons.mp h
    rcases List.mem_cons.mp hc with rfl | hc
    · simp [read_cons]
    · rw [read_cons, if_neg (by have := hd c hc; omega), ih hm hc]

/-- Two memories in canonical form that read alike are the same data. -/
theorem eq_of_read {m' : Memory} (h : m.wf) (h' : m'.wf) (hr : ∀ a, m.read a = m'.read a) : m = m' := by
  induction m generalizing m' with
  | nil =>
    cases m' with
    | nil => rfl
    | cons d m' =>
      have := hr d.1
      rw [read_of_mem h' (by simp)] at this
      exact absurd this.symm (wf_cons.mp h').2.1
  | cons c m ih =>
    obtain ⟨hc, he, hm⟩ := wf_cons.mp h
    cases m' with
    | nil =>
      have := hr c.1
      rw [read_of_mem h (by simp)] at this
      exact absurd this he
    | cons d m' =>
      obtain ⟨hd, he', hm'⟩ := wf_cons.mp h'
      have hcd : c.1 = d.1 := by
        rcases Nat.lt_trichotomy c.1 d.1 with hlt | heq | hlt
        · have := hr c.1
          rw [read_of_mem h (by simp), read_of_lt (by
            intro e hin
            rcases List.mem_cons.mp hin with rfl | hin
            · exact hlt
            · exact lt_trans hlt (hd e hin))] at this
          exact absurd this he
        · exact heq
        · have := hr d.1
          rw [read_of_mem h' (by simp), read_of_lt (by
            intro e hin
            rcases List.mem_cons.mp hin with rfl | hin
            · exact hlt
            · exact lt_trans hlt (hc e hin))] at this
          exact absurd this.symm he'
      have hb : c.2 = d.2 := by
        have := hr c.1
        rw [read_of_mem h (by simp)] at this
        rw [this, hcd, read_of_mem h' (by simp)]
      have hcons : c = d := Prod.ext hcd hb
      subst hcons
      congr 1
      refine ih hm hm' fun a => ?_
      have := hr a
      simp only [read_cons] at this
      split at this
      · rename_i hca
        rw [read_of_lt (hca ▸ hc), read_of_lt (hca ▸ hd)]
      · exact this

end Memory

@[simp] theorem length_readBytes (m : Memory) (a n : Nat) : (m.readBytes a n).length = n := by
  simp [Memory.readBytes]

@[simp] theorem length_blockBytes (b : Block) : (blockBytes b).length = 16 := by simp [blockBytes]

theorem mem_addrsFrom {a n x : Nat} : x ∈ addrsFrom a n ↔ a ≤ x ∧ x < a + n := by
  simp only [addrsFrom, List.mem_map, List.mem_range]
  constructor
  · rintro ⟨k, hk, rfl⟩
    omega
  · rintro ⟨h1, h2⟩
    exact ⟨x - a, by omega, by omega⟩

/-- Memories that agree on a range read the same bytes there. -/
theorem readBytes_congr {m m' : Memory} {a n : Nat} (h : ∀ k, k < n → m.read (a + k) = m'.read (a + k)) :
    m.readBytes a n = m'.readBytes a n := by
  simp only [Memory.readBytes]
  exact List.map_congr_left fun k hk => h k (List.mem_range.mp hk)

/-! ### Bytes as the agents see them -/

variable {s : State} {a x : Nat}

theorem lookup_filter_outside {l : List (Nat × Nat)} {p : Nat → Bool} (h : p x = true) :
    (l.filter (fun c => p c.1)).lookup x = l.lookup x := by
  induction l with
  | nil => rfl
  | cons c l ih =>
    obtain ⟨y, k⟩ := c
    by_cases hxy : x = y
    · subst hxy
      simp [h]
    · have hb : (x == y) = false := by simpa using hxy
      by_cases hy : p y = true <;> simp [List.lookup_cons, hy, hb, ih]

theorem lookup_filter_inside {l : List (Nat × Nat)} {p : Nat → Bool} (h : p x = false) :
    (l.filter (fun c => p c.1)).lookup x = none := by
  induction l with
  | nil => rfl
  | cons c l ih =>
    obtain ⟨y, k⟩ := c
    by_cases hxy : x = y
    · subst hxy
      simp [h, ih]
    · have hb : (x == y) = false := by simpa using hxy
      by_cases hy : p y = true <;> simp [List.lookup_cons, hy, hb, ih]

/-- A byte outside those written is what it was. -/
theorem byteAt_putBytes_outside {bs : List Byte} (h : s.mem.wf) (hx : x < a ∨ a + bs.length ≤ x) :
    (putBytes a bs s).byteAt x = s.byteAt x := by
  simp only [State.byteAt, putBytes]
  rw [lookup_filter_outside (p := fun y => decide (y < a ∨ a + bs.length ≤ y)) (by simpa using hx),
    Memory.read_writeBytes_outside h hx]

/-- A byte written is read back. -/
theorem byteAt_putBytes_inside {bs : List Byte} (h : s.mem.wf) {k : Nat} (hk : k < bs.length) :
    (putBytes a bs s).byteAt (a + k) = bs[k] := by
  simp only [State.byteAt, putBytes]
  rw [lookup_filter_inside (p := fun y => decide (y < a ∨ a + bs.length ≤ y)) (by simp; omega)]
  exact Memory.read_writeBytes_inside h hk

/-- The bytes written are read back. -/
theorem bytesAt_putBytes {bs : List Byte} (h : s.mem.wf) : (putBytes a bs s).bytesAt a bs.length = bs := by
  refine List.ext_getElem (by simp [State.bytesAt]) fun k h1 h2 => ?_
  simp only [State.bytesAt, List.getElem_map, List.getElem_range]
  exact byteAt_putBytes_inside h h2

theorem wf_putBytes {bs : List Byte} (h : s.mem.wf) : (putBytes a bs s).mem.wf := Memory.wf_writeBytes h

/-- Memory then holds no address that it did not hold, but those written. -/
theorem mem_putBytes_mem {bs : List Byte} {c : Host.Cell} (h : c ∈ (putBytes a bs s).mem) :
    c ∈ s.mem ∨ (a ≤ c.1 ∧ c.1 < a + bs.length) := Memory.mem_writeBytes h

theorem mem_putBytes_torn {bs : List Byte} {c : Nat × Nat} (h : c ∈ (putBytes a bs s).torn) : c ∈ s.torn :=
  List.mem_of_mem_filter h

@[simp] theorem length_bytesAt (n : Nat) : (s.bytesAt a n).length = n := by simp [State.bytesAt]

theorem bytesAt_congr {t : State} {n : Nat} (h : ∀ k, k < n → s.byteAt (a + k) = t.byteAt (a + k)) :
    s.bytesAt a n = t.bytesAt a n :=
  List.map_congr_left fun k hk => h k (List.mem_range.mp hk)

/-- A byte that reset leaves unspecified is one of the sixteen. -/
theorem mem_tear {base k : Nat} {old : List (Nat × Nat)} {c : Nat × Nat} (h : c ∈ tear base k old) :
    (base ≤ c.1 ∧ c.1 < base + 16) ∨ c ∈ old := by
  simp only [tear, List.mem_append, List.mem_map, List.mem_range] at h
  rcases h with ⟨j, hj, rfl⟩ | h
  · exact .inl ⟨by simp, by simpa using hj⟩
  · exact .inr (List.mem_of_mem_filter h)

/-- The others keep what they had. -/
theorem lookup_tear_outside {base k : Nat} {old : List (Nat × Nat)} (h : x < base ∨ base + 16 ≤ x) :
    (tear base k old).lookup x = old.lookup x := by
  have hn : ((List.range 16).map (fun j => (base + j, k + j))).lookup x = none := by
    rw [List.lookup_eq_none_iff]
    intro c hc
    obtain ⟨j, hj, rfl⟩ := List.mem_map.mp hc
    have := List.mem_range.mp hj
    simp only [bne_iff_ne, ne_eq]
    omega
  rw [tear, List.lookup_append, hn, Option.none_or,
    lookup_filter_outside (p := fun y => decide (y < base ∨ base + 16 ≤ y)) (by simpa using h)]

/-- Reset changes no byte but those of the tag buffer of a digest that ran. -/
theorem byteAt_resetPulse (h : s.eng.status = .busy → x < s.eng.tagBase.toNat ∨ s.eng.tagBase.toNat + 16 ≤ x) :
    (resetPulse s).byteAt x = s.byteAt x := by
  have hl : (resetPulse s).torn.lookup x = s.torn.lookup x := by
    simp only [resetPulse]
    split
    · exact lookup_tear_outside (h (by simpa [isBusy] using ‹isBusy s.eng = true›))
    · rfl
  simp only [State.byteAt, hl]
  rfl

end Sys2Proof.Machine
end

