-- ==== Sys2Proof/Laws/State.lean ====
section
/-! SUPPORT. For each named update of the state, what every field of the result is: later proofs cite these and unfold no
update. A field of an update's engine is given where the engine changes. -/

namespace Sys2Proof.Machine

variable (s : State) (e : Engine) (b : Block) (d : EncDst) (c : ErrCode)

/-! ### Error entry and the clearing of `ERR` -/

@[simp] theorem raise_mem : (raise c s).mem = s.mem := rfl
@[simp] theorem raise_torn : (raise c s).torn = s.torn := rfl
@[simp] theorem raise_encReq : (raise c s).encReq = s.encReq := rfl
@[simp] theorem raise_encRsp : (raise c s).encRsp = s.encRsp := rfl
@[simp] theorem raise_hRdata : (raise c s).hRdata = s.hRdata := rfl
@[simp] theorem raise_hLoad : (raise c s).hLoad = s.hLoad := rfl
@[simp] theorem raise_hOuts : (raise c s).hOuts = s.hOuts := rfl
@[simp] theorem raise_tagOpen : (raise c s).tagOpen = s.tagOpen := rfl
@[simp] theorem raise_plat : (raise c s).plat = s.plat := rfl
@[simp] theorem raise_host : (raise c s).host = s.host := rfl
@[simp] theorem raise_oracle : (raise c s).oracle = s.oracle := rfl
@[simp] theorem raise_platActs : (raise c s).platActs = s.platActs := rfl
@[simp] theorem raise_turns : (raise c s).turns = s.turns := rfl
@[simp] theorem raise_free : (raise c s).free = s.free := rfl
@[simp] theorem raise_eng_l : ((raise c s).eng).l = s.eng.l := rfl
@[simp] theorem raise_eng_k1 : ((raise c s).eng).k1 = s.eng.k1 := rfl
@[simp] theorem raise_eng_k2 : ((raise c s).eng).k2 = s.eng.k2 := rfl
@[simp] theorem raise_eng_mlast : ((raise c s).eng).mlast = s.eng.mlast := rfl
@[simp] theorem raise_eng_x : ((raise c s).eng).x = s.eng.x := rfl
@[simp] theorem raise_eng_ctxValid : ((raise c s).eng).ctxValid = s.eng.ctxValid := rfl
@[simp] theorem raise_eng_ctxCap : ((raise c s).eng).ctxCap = s.eng.ctxCap := rfl
@[simp] theorem raise_eng_msgAddr : ((raise c s).eng).msgAddr = s.eng.msgAddr := rfl
@[simp] theorem raise_eng_tagAddr : ((raise c s).eng).tagAddr = s.eng.tagAddr := rfl
@[simp] theorem raise_eng_status : ((raise c s).eng).status = .error := rfl
@[simp] theorem raise_eng_err : ((raise c s).eng).err = c := rfl
@[simp] theorem raise_eng_phase : ((raise c s).eng).phase = s.eng.phase := rfl
@[simp] theorem raise_eng_msgBase : ((raise c s).eng).msgBase = s.eng.msgBase := rfl
@[simp] theorem raise_eng_tagBase : ((raise c s).eng).tagBase = s.eng.tagBase := rfl
@[simp] theorem raise_eng_len : ((raise c s).eng).len = s.eng.len := rfl
@[simp] theorem raise_eng_n : ((raise c s).eng).n = s.eng.n := rfl
@[simp] theorem raise_eng_flag : ((raise c s).eng).flag = s.eng.flag := rfl
@[simp] theorem raise_eng_r : ((raise c s).eng).r = s.eng.r := rfl
@[simp] theorem raise_eng_i : ((raise c s).eng).i = s.eng.i := rfl
@[simp] theorem raise_eng_encPend : ((raise c s).eng).encPend = s.eng.encPend := rfl
@[simp] theorem raise_eng_encDst : ((raise c s).eng).encDst = s.eng.encDst := rfl

@[simp] theorem clearErr_mem : (clearErr s).mem = s.mem := rfl
@[simp] theorem clearErr_torn : (clearErr s).torn = s.torn := rfl
@[simp] theorem clearErr_encReq : (clearErr s).encReq = s.encReq := rfl
@[simp] theorem clearErr_encRsp : (clearErr s).encRsp = s.encRsp := rfl
@[simp] theorem clearErr_hRdata : (clearErr s).hRdata = s.hRdata := rfl
@[simp] theorem clearErr_hLoad : (clearErr s).hLoad = s.hLoad := rfl
@[simp] theorem clearErr_hOuts : (clearErr s).hOuts = s.hOuts := rfl
@[simp] theorem clearErr_tagOpen : (clearErr s).tagOpen = s.tagOpen := rfl
@[simp] theorem clearErr_plat : (clearErr s).plat = s.plat := rfl
@[simp] theorem clearErr_host : (clearErr s).host = s.host := rfl
@[simp] theorem clearErr_oracle : (clearErr s).oracle = s.oracle := rfl
@[simp] theorem clearErr_platActs : (clearErr s).platActs = s.platActs := rfl
@[simp] theorem clearErr_turns : (clearErr s).turns = s.turns := rfl
@[simp] theorem clearErr_free : (clearErr s).free = s.free := rfl
@[simp] theorem clearErr_eng_l : ((clearErr s).eng).l = s.eng.l := rfl
@[simp] theorem clearErr_eng_k1 : ((clearErr s).eng).k1 = s.eng.k1 := rfl
@[simp] theorem clearErr_eng_k2 : ((clearErr s).eng).k2 = s.eng.k2 := rfl
@[simp] theorem clearErr_eng_mlast : ((clearErr s).eng).mlast = s.eng.mlast := rfl
@[simp] theorem clearErr_eng_x : ((clearErr s).eng).x = s.eng.x := rfl
@[simp] theorem clearErr_eng_ctxValid : ((clearErr s).eng).ctxValid = s.eng.ctxValid := rfl
@[simp] theorem clearErr_eng_ctxCap : ((clearErr s).eng).ctxCap = s.eng.ctxCap := rfl
@[simp] theorem clearErr_eng_msgAddr : ((clearErr s).eng).msgAddr = s.eng.msgAddr := rfl
@[simp] theorem clearErr_eng_tagAddr : ((clearErr s).eng).tagAddr = s.eng.tagAddr := rfl
@[simp] theorem clearErr_eng_status : ((clearErr s).eng).status = s.eng.status := rfl
@[simp] theorem clearErr_eng_err : ((clearErr s).eng).err = .none := rfl
@[simp] theorem clearErr_eng_phase : ((clearErr s).eng).phase = s.eng.phase := rfl
@[simp] theorem clearErr_eng_msgBase : ((clearErr s).eng).msgBase = s.eng.msgBase := rfl
@[simp] theorem clearErr_eng_tagBase : ((clearErr s).eng).tagBase = s.eng.tagBase := rfl
@[simp] theorem clearErr_eng_len : ((clearErr s).eng).len = s.eng.len := rfl
@[simp] theorem clearErr_eng_n : ((clearErr s).eng).n = s.eng.n := rfl
@[simp] theorem clearErr_eng_flag : ((clearErr s).eng).flag = s.eng.flag := rfl
@[simp] theorem clearErr_eng_r : ((clearErr s).eng).r = s.eng.r := rfl
@[simp] theorem clearErr_eng_i : ((clearErr s).eng).i = s.eng.i := rfl
@[simp] theorem clearErr_eng_encPend : ((clearErr s).eng).encPend = s.eng.encPend := rfl
@[simp] theorem clearErr_eng_encDst : ((clearErr s).eng).encDst = s.eng.encDst := rfl

/-! ### The two commands -/

@[simp] theorem setupContext_mem (cap : Handle) : (setupContext cap s).mem = s.mem := rfl
@[simp] theorem setupContext_torn (cap : Handle) : (setupContext cap s).torn = s.torn := rfl
@[simp] theorem setupContext_encReq (cap : Handle) : (setupContext cap s).encReq = s.encReq := rfl
@[simp] theorem setupContext_encRsp (cap : Handle) : (setupContext cap s).encRsp = s.encRsp := rfl
@[simp] theorem setupContext_hRdata (cap : Handle) : (setupContext cap s).hRdata = s.hRdata := rfl
@[simp] theorem setupContext_hLoad (cap : Handle) : (setupContext cap s).hLoad = s.hLoad := rfl
@[simp] theorem setupContext_hOuts (cap : Handle) : (setupContext cap s).hOuts = s.hOuts := rfl
@[simp] theorem setupContext_tagOpen (cap : Handle) : (setupContext cap s).tagOpen = s.tagOpen := rfl
@[simp] theorem setupContext_plat (cap : Handle) : (setupContext cap s).plat = s.plat := rfl
@[simp] theorem setupContext_host (cap : Handle) : (setupContext cap s).host = s.host := rfl
@[simp] theorem setupContext_oracle (cap : Handle) : (setupContext cap s).oracle = s.oracle := rfl
@[simp] theorem setupContext_platActs (cap : Handle) : (setupContext cap s).platActs = s.platActs := rfl
@[simp] theorem setupContext_turns (cap : Handle) : (setupContext cap s).turns = s.turns := rfl
@[simp] theorem setupContext_free (cap : Handle) : (setupContext cap s).free = s.free := rfl
@[simp] theorem setupContext_eng_l (cap : Handle) : ((setupContext cap s).eng).l = s.eng.l := rfl
@[simp] theorem setupContext_eng_k1 (cap : Handle) : ((setupContext cap s).eng).k1 = s.eng.k1 := rfl
@[simp] theorem setupContext_eng_k2 (cap : Handle) : ((setupContext cap s).eng).k2 = s.eng.k2 := rfl
@[simp] theorem setupContext_eng_mlast (cap : Handle) : ((setupContext cap s).eng).mlast = s.eng.mlast := rfl
@[simp] theorem setupContext_eng_x (cap : Handle) : ((setupContext cap s).eng).x = s.eng.x := rfl
@[simp] theorem setupContext_eng_ctxValid (cap : Handle) : ((setupContext cap s).eng).ctxValid = true := rfl
@[simp] theorem setupContext_eng_ctxCap (cap : Handle) : ((setupContext cap s).eng).ctxCap = cap := rfl
@[simp] theorem setupContext_eng_msgAddr (cap : Handle) : ((setupContext cap s).eng).msgAddr = s.eng.msgAddr := rfl
@[simp] theorem setupContext_eng_tagAddr (cap : Handle) : ((setupContext cap s).eng).tagAddr = s.eng.tagAddr := rfl
@[simp] theorem setupContext_eng_status (cap : Handle) : ((setupContext cap s).eng).status = .idle := rfl
@[simp] theorem setupContext_eng_err (cap : Handle) : ((setupContext cap s).eng).err = .none := rfl
@[simp] theorem setupContext_eng_phase (cap : Handle) : ((setupContext cap s).eng).phase = s.eng.phase := rfl
@[simp] theorem setupContext_eng_msgBase (cap : Handle) : ((setupContext cap s).eng).msgBase = s.eng.msgBase := rfl
@[simp] theorem setupContext_eng_tagBase (cap : Handle) : ((setupContext cap s).eng).tagBase = s.eng.tagBase := rfl
@[simp] theorem setupContext_eng_len (cap : Handle) : ((setupContext cap s).eng).len = s.eng.len := rfl
@[simp] theorem setupContext_eng_n (cap : Handle) : ((setupContext cap s).eng).n = s.eng.n := rfl
@[simp] theorem setupContext_eng_flag (cap : Handle) : ((setupContext cap s).eng).flag = s.eng.flag := rfl
@[simp] theorem setupContext_eng_r (cap : Handle) : ((setupContext cap s).eng).r = s.eng.r := rfl
@[simp] theorem setupContext_eng_i (cap : Handle) : ((setupContext cap s).eng).i = s.eng.i := rfl
@[simp] theorem setupContext_eng_encPend (cap : Handle) : ((setupContext cap s).eng).encPend = s.eng.encPend := rfl
@[simp] theorem setupContext_eng_encDst (cap : Handle) : ((setupContext cap s).eng).encDst = s.eng.encDst := rfl

@[simp] theorem startDigest_mem (n : BitVec 16) : (startDigest n s).mem = s.mem := rfl
@[simp] theorem startDigest_torn (n : BitVec 16) : (startDigest n s).torn = s.torn := rfl
@[simp] theorem startDigest_encReq (n : BitVec 16) : (startDigest n s).encReq = s.encReq := rfl
@[simp] theorem startDigest_encRsp (n : BitVec 16) : (startDigest n s).encRsp = s.encRsp := rfl
@[simp] theorem startDigest_hRdata (n : BitVec 16) : (startDigest n s).hRdata = s.hRdata := rfl
@[simp] theorem startDigest_hLoad (n : BitVec 16) : (startDigest n s).hLoad = s.hLoad := rfl
@[simp] theorem startDigest_hOuts (n : BitVec 16) : (startDigest n s).hOuts = s.hOuts := rfl
@[simp] theorem startDigest_plat (n : BitVec 16) : (startDigest n s).plat = s.plat := rfl
@[simp] theorem startDigest_host (n : BitVec 16) : (startDigest n s).host = s.host := rfl
@[simp] theorem startDigest_oracle (n : BitVec 16) : (startDigest n s).oracle = s.oracle := rfl
@[simp] theorem startDigest_platActs (n : BitVec 16) : (startDigest n s).platActs = s.platActs := rfl
@[simp] theorem startDigest_turns (n : BitVec 16) : (startDigest n s).turns = s.turns := rfl
@[simp] theorem startDigest_free (n : BitVec 16) : (startDigest n s).free = s.free := rfl
@[simp] theorem startDigest_tagOpen (n : BitVec 16) : (startDigest n s).tagOpen = openTag s.eng.tagAddr.toNat s.tagOpen := rfl
@[simp] theorem startDigest_eng_l (n : BitVec 16) : ((startDigest n s).eng).l = s.eng.l := rfl
@[simp] theorem startDigest_eng_k1 (n : BitVec 16) : ((startDigest n s).eng).k1 = s.eng.k1 := rfl
@[simp] theorem startDigest_eng_k2 (n : BitVec 16) : ((startDigest n s).eng).k2 = s.eng.k2 := rfl
@[simp] theorem startDigest_eng_mlast (n : BitVec 16) : ((startDigest n s).eng).mlast = s.eng.mlast := rfl
@[simp] theorem startDigest_eng_x (n : BitVec 16) : ((startDigest n s).eng).x = s.eng.x := rfl
@[simp] theorem startDigest_eng_ctxValid (n : BitVec 16) : ((startDigest n s).eng).ctxValid = s.eng.ctxValid := rfl
@[simp] theorem startDigest_eng_ctxCap (n : BitVec 16) : ((startDigest n s).eng).ctxCap = s.eng.ctxCap := rfl
@[simp] theorem startDigest_eng_msgAddr (n : BitVec 16) : ((startDigest n s).eng).msgAddr = s.eng.msgAddr := rfl
@[simp] theorem startDigest_eng_tagAddr (n : BitVec 16) : ((startDigest n s).eng).tagAddr = s.eng.tagAddr := rfl
@[simp] theorem startDigest_eng_status (n : BitVec 16) : ((startDigest n s).eng).status = .busy := rfl
@[simp] theorem startDigest_eng_err (n : BitVec 16) : ((startDigest n s).eng).err = s.eng.err := rfl
@[simp] theorem startDigest_eng_phase (n : BitVec 16) : ((startDigest n s).eng).phase = .subkeyL := rfl
@[simp] theorem startDigest_eng_msgBase (n : BitVec 16) : ((startDigest n s).eng).msgBase = s.eng.msgAddr := rfl
@[simp] theorem startDigest_eng_tagBase (n : BitVec 16) : ((startDigest n s).eng).tagBase = s.eng.tagAddr := rfl
@[simp] theorem startDigest_eng_len (n : BitVec 16) : ((startDigest n s).eng).len = n := rfl
@[simp] theorem startDigest_eng_n (n : BitVec 16) : ((startDigest n s).eng).n = s.eng.n := rfl
@[simp] theorem startDigest_eng_flag (n : BitVec 16) : ((startDigest n s).eng).flag = s.eng.flag := rfl
@[simp] theorem startDigest_eng_r (n : BitVec 16) : ((startDigest n s).eng).r = s.eng.r := rfl
@[simp] theorem startDigest_eng_i (n : BitVec 16) : ((startDigest n s).eng).i = s.eng.i := rfl
@[simp] theorem startDigest_eng_encPend (n : BitVec 16) : ((startDigest n s).eng).encPend = s.eng.encPend := rfl
@[simp] theorem startDigest_eng_encDst (n : BitVec 16) : ((startDigest n s).eng).encDst = s.eng.encDst := rfl

/-! ### Memory -/

@[simp] theorem putBytes_eng (a : Nat) (bs : List Byte) : (putBytes a bs s).eng = s.eng := rfl
@[simp] theorem putBytes_encReq (a : Nat) (bs : List Byte) : (putBytes a bs s).encReq = s.encReq := rfl
@[simp] theorem putBytes_encRsp (a : Nat) (bs : List Byte) : (putBytes a bs s).encRsp = s.encRsp := rfl
@[simp] theorem putBytes_hRdata (a : Nat) (bs : List Byte) : (putBytes a bs s).hRdata = s.hRdata := rfl
@[simp] theorem putBytes_hLoad (a : Nat) (bs : List Byte) : (putBytes a bs s).hLoad = s.hLoad := rfl
@[simp] theorem putBytes_hOuts (a : Nat) (bs : List Byte) : (putBytes a bs s).hOuts = s.hOuts := rfl
@[simp] theorem putBytes_tagOpen (a : Nat) (bs : List Byte) : (putBytes a bs s).tagOpen = s.tagOpen := rfl
@[simp] theorem putBytes_plat (a : Nat) (bs : List Byte) : (putBytes a bs s).plat = s.plat := rfl
@[simp] theorem putBytes_host (a : Nat) (bs : List Byte) : (putBytes a bs s).host = s.host := rfl
@[simp] theorem putBytes_oracle (a : Nat) (bs : List Byte) : (putBytes a bs s).oracle = s.oracle := rfl
@[simp] theorem putBytes_platActs (a : Nat) (bs : List Byte) : (putBytes a bs s).platActs = s.platActs := rfl
@[simp] theorem putBytes_turns (a : Nat) (bs : List Byte) : (putBytes a bs s).turns = s.turns := rfl
@[simp] theorem putBytes_free (a : Nat) (bs : List Byte) : (putBytes a bs s).free = s.free := rfl
@[simp] theorem putBytes_mem (a : Nat) (bs : List Byte) : (putBytes a bs s).mem = s.mem.writeBytes a bs := rfl

/-- The address width is in its range (00_scope.md R10). -/
theorem Platform.addrW_range (p : Platform) : 1 ≤ p.addrW ∧ p.addrW ≤ 32 := by
  have := p.addrTop.isLt
  simp only [Platform.addrW]
  omega

/-! ### The register `ENC_DST` names -/

@[simp] theorem setEncReg_k1 : (setEncReg e b).k1 = e.k1 := by unfold setEncReg; split <;> rfl
@[simp] theorem setEncReg_k2 : (setEncReg e b).k2 = e.k2 := by unfold setEncReg; split <;> rfl
@[simp] theorem setEncReg_mlast : (setEncReg e b).mlast = e.mlast := by unfold setEncReg; split <;> rfl
@[simp] theorem setEncReg_ctxValid : (setEncReg e b).ctxValid = e.ctxValid := by unfold setEncReg; split <;> rfl
@[simp] theorem setEncReg_ctxCap : (setEncReg e b).ctxCap = e.ctxCap := by unfold setEncReg; split <;> rfl
@[simp] theorem setEncReg_msgAddr : (setEncReg e b).msgAddr = e.msgAddr := by unfold setEncReg; split <;> rfl
@[simp] theorem setEncReg_tagAddr : (setEncReg e b).tagAddr = e.tagAddr := by unfold setEncReg; split <;> rfl
@[simp] theorem setEncReg_status : (setEncReg e b).status = e.status := by unfold setEncReg; split <;> rfl
@[simp] theorem setEncReg_err : (setEncReg e b).err = e.err := by unfold setEncReg; split <;> rfl
@[simp] theorem setEncReg_phase : (setEncReg e b).phase = e.phase := by unfold setEncReg; split <;> rfl
@[simp] theorem setEncReg_msgBase : (setEncReg e b).msgBase = e.msgBase := by unfold setEncReg; split <;> rfl
@[simp] theorem setEncReg_tagBase : (setEncReg e b).tagBase = e.tagBase := by unfold setEncReg; split <;> rfl
@[simp] theorem setEncReg_len : (setEncReg e b).len = e.len := by unfold setEncReg; split <;> rfl
@[simp] theorem setEncReg_n : (setEncReg e b).n = e.n := by unfold setEncReg; split <;> rfl
@[simp] theorem setEncReg_flag : (setEncReg e b).flag = e.flag := by unfold setEncReg; split <;> rfl
@[simp] theorem setEncReg_r : (setEncReg e b).r = e.r := by unfold setEncReg; split <;> rfl
@[simp] theorem setEncReg_i : (setEncReg e b).i = e.i := by unfold setEncReg; split <;> rfl
@[simp] theorem setEncReg_encPend : (setEncReg e b).encPend = e.encPend := by unfold setEncReg; split <;> rfl
@[simp] theorem setEncReg_encDst : (setEncReg e b).encDst = e.encDst := by unfold setEncReg; split <;> rfl
@[simp] theorem encReg_setEncReg : encReg (setEncReg e b) = b := by cases h : e.encDst <;> simp [setEncReg, encReg, h]
theorem setEncReg_l_of (h : e.encDst = .l) : setEncReg e b = { e with l := b } := by simp [setEncReg, h]
theorem setEncReg_x_of (h : e.encDst = .x) : setEncReg e b = { e with x := b } := by simp [setEncReg, h]
theorem encReg_l_of (h : e.encDst = .l) : encReg e = e.l := by simp [encReg, h]
theorem encReg_x_of (h : e.encDst = .x) : encReg e = e.x := by simp [encReg, h]

/-! ### The adapter port -/

@[simp] theorem issue_mem : (issue d s).mem = s.mem := rfl
@[simp] theorem issue_torn : (issue d s).torn = s.torn := rfl
@[simp] theorem issue_encRsp : (issue d s).encRsp = s.encRsp := rfl
@[simp] theorem issue_hRdata : (issue d s).hRdata = s.hRdata := rfl
@[simp] theorem issue_hLoad : (issue d s).hLoad = s.hLoad := rfl
@[simp] theorem issue_hOuts : (issue d s).hOuts = s.hOuts := rfl
@[simp] theorem issue_tagOpen : (issue d s).tagOpen = s.tagOpen := rfl
@[simp] theorem issue_plat : (issue d s).plat = s.plat := rfl
@[simp] theorem issue_host : (issue d s).host = s.host := rfl
@[simp] theorem issue_oracle : (issue d s).oracle = s.oracle := rfl
@[simp] theorem issue_platActs : (issue d s).platActs = s.platActs := rfl
@[simp] theorem issue_turns : (issue d s).turns = s.turns := rfl
@[simp] theorem issue_free : (issue d s).free = s.free := rfl
@[simp] theorem issue_eng_l : ((issue d s).eng).l = s.eng.l := rfl
@[simp] theorem issue_eng_k1 : ((issue d s).eng).k1 = s.eng.k1 := rfl
@[simp] theorem issue_eng_k2 : ((issue d s).eng).k2 = s.eng.k2 := rfl
@[simp] theorem issue_eng_mlast : ((issue d s).eng).mlast = s.eng.mlast := rfl
@[simp] theorem issue_eng_x : ((issue d s).eng).x = s.eng.x := rfl
@[simp] theorem issue_eng_ctxValid : ((issue d s).eng).ctxValid = s.eng.ctxValid := rfl
@[simp] theorem issue_eng_ctxCap : ((issue d s).eng).ctxCap = s.eng.ctxCap := rfl
@[simp] theorem issue_eng_msgAddr : ((issue d s).eng).msgAddr = s.eng.msgAddr := rfl
@[simp] theorem issue_eng_tagAddr : ((issue d s).eng).tagAddr = s.eng.tagAddr := rfl
@[simp] theorem issue_eng_status : ((issue d s).eng).status = s.eng.status := rfl
@[simp] theorem issue_eng_err : ((issue d s).eng).err = s.eng.err := rfl
@[simp] theorem issue_eng_phase : ((issue d s).eng).phase = s.eng.phase := rfl
@[simp] theorem issue_eng_msgBase : ((issue d s).eng).msgBase = s.eng.msgBase := rfl
@[simp] theorem issue_eng_tagBase : ((issue d s).eng).tagBase = s.eng.tagBase := rfl
@[simp] theorem issue_eng_len : ((issue d s).eng).len = s.eng.len := rfl
@[simp] theorem issue_eng_n : ((issue d s).eng).n = s.eng.n := rfl
@[simp] theorem issue_eng_flag : ((issue d s).eng).flag = s.eng.flag := rfl
@[simp] theorem issue_eng_r : ((issue d s).eng).r = s.eng.r := rfl
@[simp] theorem issue_eng_i : ((issue d s).eng).i = s.eng.i := rfl
@[simp] theorem issue_eng_encPend : ((issue d s).eng).encPend = true := rfl
@[simp] theorem issue_eng_encDst : ((issue d s).eng).encDst = d := rfl
theorem issue_encReq : (issue d s).encReq = some ⟨s.eng.ctxCap, encReg { s.eng with encDst := d }⟩ := by cases d <;> rfl

@[simp] theorem presentAnswer_eng : (presentAnswer b s).eng = s.eng := rfl
@[simp] theorem presentAnswer_mem : (presentAnswer b s).mem = s.mem := rfl
@[simp] theorem presentAnswer_torn : (presentAnswer b s).torn = s.torn := rfl
@[simp] theorem presentAnswer_hRdata : (presentAnswer b s).hRdata = s.hRdata := rfl
@[simp] theorem presentAnswer_hLoad : (presentAnswer b s).hLoad = s.hLoad := rfl
@[simp] theorem presentAnswer_hOuts : (presentAnswer b s).hOuts = s.hOuts := rfl
@[simp] theorem presentAnswer_tagOpen : (presentAnswer b s).tagOpen = s.tagOpen := rfl
@[simp] theorem presentAnswer_plat : (presentAnswer b s).plat = s.plat := rfl
@[simp] theorem presentAnswer_host : (presentAnswer b s).host = s.host := rfl
@[simp] theorem presentAnswer_oracle : (presentAnswer b s).oracle = s.oracle := rfl
@[simp] theorem presentAnswer_platActs : (presentAnswer b s).platActs = s.platActs := rfl
@[simp] theorem presentAnswer_turns : (presentAnswer b s).turns = s.turns := rfl
@[simp] theorem presentAnswer_free : (presentAnswer b s).free = s.free := rfl
@[simp] theorem presentAnswer_encReq : (presentAnswer b s).encReq = none := rfl
@[simp] theorem presentAnswer_encRsp : (presentAnswer b s).encRsp = if s.eng.encPend then some b else s.encRsp := rfl

/-! ### Observation and reset -/

@[simp] theorem observe_eng : (observe s).eng = s.eng := by unfold observe; split <;> rfl
@[simp] theorem observe_mem : (observe s).mem = s.mem := by unfold observe; split <;> rfl
@[simp] theorem observe_torn : (observe s).torn = s.torn := by unfold observe; split <;> rfl
@[simp] theorem observe_encReq : (observe s).encReq = s.encReq := by unfold observe; split <;> rfl
@[simp] theorem observe_encRsp : (observe s).encRsp = s.encRsp := by unfold observe; split <;> rfl
@[simp] theorem observe_hRdata : (observe s).hRdata = s.hRdata := by unfold observe; split <;> rfl
@[simp] theorem observe_hLoad : (observe s).hLoad = s.hLoad := by unfold observe; split <;> rfl
@[simp] theorem observe_hOuts : (observe s).hOuts = s.hOuts := by unfold observe; split <;> rfl
@[simp] theorem observe_plat : (observe s).plat = s.plat := by unfold observe; split <;> rfl
@[simp] theorem observe_host : (observe s).host = s.host := by unfold observe; split <;> rfl
@[simp] theorem observe_oracle : (observe s).oracle = s.oracle := by unfold observe; split <;> rfl
@[simp] theorem observe_platActs : (observe s).platActs = s.platActs := by unfold observe; split <;> rfl
@[simp] theorem observe_turns : (observe s).turns = s.turns := by unfold observe; split <;> rfl
@[simp] theorem observe_free : (observe s).free = s.free := by unfold observe; split <;> rfl

@[simp] theorem resetPulse_mem : (resetPulse s).mem = s.mem := rfl
@[simp] theorem resetPulse_encReq : (resetPulse s).encReq = s.encReq := rfl
@[simp] theorem resetPulse_hRdata : (resetPulse s).hRdata = s.hRdata := rfl
@[simp] theorem resetPulse_hLoad : (resetPulse s).hLoad = s.hLoad := rfl
@[simp] theorem resetPulse_hOuts : (resetPulse s).hOuts = s.hOuts := rfl
theorem resetPulse_tagOpen :
    (resetPulse s).tagOpen = if isBusy s.eng then closeTag s.eng.tagBase.toNat s.tagOpen else s.tagOpen := rfl
theorem resetPulse_torn :
    (resetPulse s).torn = if isBusy s.eng then tear s.eng.tagBase.toNat (s.free + 13) s.torn else s.torn := rfl
@[simp] theorem resetPulse_plat : (resetPulse s).plat = s.plat := rfl
@[simp] theorem resetPulse_host : (resetPulse s).host = s.host := rfl
@[simp] theorem resetPulse_oracle : (resetPulse s).oracle = s.oracle := rfl
@[simp] theorem resetPulse_platActs : (resetPulse s).platActs = s.platActs := rfl
@[simp] theorem resetPulse_turns : (resetPulse s).turns = s.turns := rfl
@[simp] theorem resetPulse_encRsp : (resetPulse s).encRsp = none := rfl
@[simp] theorem resetPulse_free : (resetPulse s).free = s.free + 29 := rfl
theorem resetPulse_eng : (resetPulse s).eng = resetEngine s.plat s.free := rfl
@[simp] theorem resetPulse_eng_ctxValid : (resetPulse s).eng.ctxValid = false := rfl
@[simp] theorem resetPulse_eng_ctxCap : (resetPulse s).eng.ctxCap = 0 := rfl
@[simp] theorem resetPulse_eng_msgAddr : (resetPulse s).eng.msgAddr = 0 := rfl
@[simp] theorem resetPulse_eng_tagAddr : (resetPulse s).eng.tagAddr = 0 := rfl
@[simp] theorem resetPulse_eng_status : (resetPulse s).eng.status = .idle := rfl
@[simp] theorem resetPulse_eng_err : (resetPulse s).eng.err = .none := rfl
@[simp] theorem resetPulse_eng_phase : (resetPulse s).eng.phase = .idle := rfl
@[simp] theorem resetPulse_eng_encPend : (resetPulse s).eng.encPend = false := rfl

end Sys2Proof.Machine
end

