-- ==== Sys2Proof/Laws/Ops.lean ====
section
/-! SUPPORT. Everything a shared operation, and every meaning, can do when it answers a next state: later proofs cite
these and do not unfold the meanings. -/

namespace Sys2Proof.Machine

variable {s t : State}

/-! ### Shared operations -/

/-- Completion of an adapter transaction. -/
theorem takeAnswer_some (h : takeAnswer s = some t) :
    ∃ r, s.encRsp = some r ∧
      t = { s with eng := { setEncReg s.eng r with encPend := false }, encRsp := none } := by
  unfold takeAnswer at h
  split at h
  · cases h
  · rename_i r hr
    exact ⟨r, hr, (Option.some.inj h).symm⟩

theorem takeAnswer_of {r : Block} (h : s.encRsp = some r) :
    takeAnswer s = some { s with eng := { setEncReg s.eng r with encPend := false }, encRsp := none } := by
  simp [takeAnswer, h]

theorem takeAnswer_none (h : s.encRsp = none) : takeAnswer s = none := by
  simp [takeAnswer, h]

theorem memRead_some {a n : Nat} {bs : List Byte} (h : memRead s a n = some bs) :
    admitR s.plat a n = true ∧ bs = s.bytesAt a n := by
  unfold memRead at h
  split at h
  · exact ⟨‹_›, (Option.some.inj h).symm⟩
  · cases h

theorem memRead_of {a n : Nat} (h : admitR s.plat a n = true) : memRead s a n = some (s.bytesAt a n) := by
  simp [memRead, h]

theorem memWrite_some {a : Nat} {bs : List Byte} (h : memWrite s a bs = some t) :
    admitW s.plat a bs.length = true ∧ t = putBytes a bs s := by
  unfold memWrite at h
  split at h
  · exact ⟨‹_›, (Option.some.inj h).symm⟩
  · cases h

theorem memWrite_of {a : Nat} {bs : List Byte} (h : admitW s.plat a bs.length = true) :
    memWrite s a bs = some (putBytes a bs s) := by
  simp [memWrite, h]

/-- An admitted write lies inside the address space. -/
theorem admitW_bound {p : Platform} {a n : Nat} (h : admitW p a n = true) (hn : n ≠ 0) : a + n ≤ 2 ^ p.addrW := by
  simp only [admitW, Bool.or_eq_true, beq_iff_eq, Bool.and_eq_true, decide_eq_true_eq] at h
  tauto

/-- So does an admitted read of at least one byte. -/
theorem admitR_bound {p : Platform} {a n : Nat} (h : admitR p a n = true) (hn : n ≠ 0) : a + n ≤ 2 ^ p.addrW := by
  simp only [admitR, Bool.or_eq_true, beq_iff_eq, Bool.and_eq_true, decide_eq_true_eq] at h
  tauto

/-- The addresses the host may not rely on once a digest is accepted: those of before, and the tag buffer. -/
theorem mem_openTag {base a : Nat} {old : List Nat} :
    a ∈ openTag base old ↔ a ∈ old ∨ (base ≤ a ∧ a < base + 16) := by
  simp only [openTag, List.mem_append, List.mem_filter, decide_eq_true_eq, mem_addrsFrom]
  tauto

/-- Those left when a digest is abandoned. -/
theorem mem_closeTag {base a : Nat} {old : List Nat} :
    a ∈ closeTag base old ↔ a ∈ old ∧ ¬ (base ≤ a ∧ a < base + 16) := by
  simp only [closeTag, List.mem_filter, decide_eq_true_eq, mem_addrsFrom]

theorem truncAddr_lt (p : Platform) (w : Word) : (truncAddr p w).toNat < 2 ^ p.addrW := by
  simp only [truncAddr, BitVec.toNat_ofNat]
  exact lt_of_le_of_lt (Nat.mod_le _ _) (Nat.mod_lt _ (by positivity))

/-- The last block is made of a complete chunk or of a padded one. -/
theorem lastBlock_some {c : Bool} {chunk : List Byte} {k1 k2 m : Block} (h : lastBlock c chunk k1 k2 = some m) :
    (c = true ∧ chunk.length = 16 ∧ m = ofBytes chunk ^^^ k1) ∨
    (c = false ∧ chunk.length ≤ 15 ∧ m = pad chunk ^^^ k2) := by
  unfold lastBlock at h
  split at h <;> split at h <;> simp_all

/-! ### The commands -/

/-- What an accepted `DIGEST` can do. -/
theorem acceptDigest_next {len : BitVec 16} (h : acceptDigest len s = .next t) :
    (∃ c, c ≠ .none ∧ t = raise c s) ∨
    (s.eng.ctxValid = true ∧ s.eng.ctxCap ≠ 0 ∧ admitR s.plat s.eng.msgAddr.toNat len.toNat = true ∧
      admitW s.plat s.eng.tagAddr.toNat 16 = true ∧
      overlaps s.eng.msgAddr.toNat len.toNat s.eng.tagAddr.toNat = false ∧ t = startDigest len s) := by
  unfold acceptDigest at h
  split_ifs at h with h1 h2 h3 h4 h5
  · exact .inl ⟨_, by simp, (Host.Outcome.next.inj h).symm⟩
  · exact .inl ⟨_, by simp, (Host.Outcome.next.inj h).symm⟩
  · exact .inl ⟨_, by simp, (Host.Outcome.next.inj h).symm⟩
  · exact .inl ⟨_, by simp, (Host.Outcome.next.inj h).symm⟩
  · exact .inr ⟨by simpa using h1, h2, by simpa using h3, by simpa using h4, by simpa using h5,
      (Host.Outcome.next.inj h).symm⟩

theorem execSetup_next {cap : Handle} (h : execSetup cap s = .next t) :
    (isBusy s.eng = true ∧ t = s) ∨ (isBusy s.eng = false ∧ t = setupContext cap (clearErr s)) := by
  unfold execSetup at h
  split at h <;> simp_all

theorem execDigest_next {len : BitVec 16} (h : execDigest len s = .next t) :
    (isBusy s.eng = true ∧ t = s) ∨ (isBusy s.eng = false ∧ acceptDigest len (clearErr s) = .next t) := by
  unfold execDigest at h
  split at h <;> simp_all

/-- What a write to the command register can do: nothing while busy; else a command's effect, or error entry. -/
inductive CommandEffect (s t : State) : Prop
  | held (h : isBusy s.eng = true) (e : t = s)
  | setup (h : isBusy s.eng = false) (cap : Handle) (e : t = setupContext cap (clearErr s))
  | error (h : isBusy s.eng = false) (c : ErrCode) (hc : c ≠ .none) (e : t = raise c (clearErr s))
  | digest (h : isBusy s.eng = false) (len : BitVec 16)
      (ctx : s.eng.ctxValid = true ∧ s.eng.ctxCap ≠ 0)
      (readable : admitR s.plat s.eng.msgAddr.toNat len.toNat = true)
      (writable : admitW s.plat s.eng.tagAddr.toNat 16 = true)
      (apart : overlaps s.eng.msgAddr.toNat len.toNat s.eng.tagAddr.toNat = false)
      (e : t = startDigest len (clearErr s))

theorem execSetup_effect {cap : Handle} (h : execSetup cap s = .next t) : CommandEffect s t := by
  rcases execSetup_next h with ⟨hb, rfl⟩ | ⟨hb, rfl⟩
  · exact .held hb rfl
  · exact .setup hb cap rfl

theorem execDigest_effect {len : BitVec 16} (h : execDigest len s = .next t) : CommandEffect s t := by
  rcases execDigest_next h with ⟨hb, rfl⟩ | ⟨hb, ha⟩
  · exact .held hb rfl
  · rcases acceptDigest_next ha with ⟨c, hc, rfl⟩ | ⟨h1, h2, h3, h4, h5, rfl⟩
    · exact .error hb c hc rfl
    · exact .digest hb len ⟨h1, h2⟩ h3 h4 h5 rfl

theorem acceptWord_effect {w : Word} (hb : isBusy s.eng = false) (h : acceptWord w s = .next t) :
    CommandEffect s t := by
  unfold acceptWord at h
  split at h
  · exact execSetup_effect h
  · exact execDigest_effect h
  · exact .error hb .cmd (by simp) (Host.Outcome.next.inj h).symm

/-- What `WR` can do. -/
theorem execWr_next {idx : BitVec 3} {data : Word} (h : execWr idx data s = .next t) :
    (idx = 0 ∧ CommandEffect s t) ∨
    (idx = 2 ∧ t = { s with eng := { s.eng with msgAddr := truncAddr s.plat data } }) ∨
    (idx = 3 ∧ t = { s with eng := { s.eng with tagAddr := truncAddr s.plat data } }) ∨ (idx ≠ 0 ∧ t = s) := by
  unfold execWr at h
  split_ifs at h with h0 hb h2 h3
  · exact .inl ⟨h0, .held hb (Host.Outcome.next.inj h).symm⟩
  · exact .inl ⟨h0, acceptWord_effect (by simpa using hb) h⟩
  · exact .inr (.inl ⟨h2, (Host.Outcome.next.inj h).symm⟩)
  · exact .inr (.inr (.inl ⟨h3, (Host.Outcome.next.inj h).symm⟩))
  · exact .inr (.inr (.inr ⟨h0, (Host.Outcome.next.inj h).symm⟩))

/-- What the observation of `DONE` changes. -/
theorem observe_eq (s : State) :
    observe s = { s with tagOpen := if s.eng.status = .done then [] else s.tagOpen } := by
  unfold observe
  split <;> rfl

/-- What `RD` does: the data on the port, and the observation of `DONE`. -/
theorem execRd_eq (idx : BitVec 3) (s : State) :
    execRd idx s = .next { s with
      hRdata := readReg s.eng idx
      tagOpen := if idx = 1 ∧ s.eng.status = .done then [] else s.tagOpen } := by
  unfold execRd
  by_cases h : idx = 1
  · simp [h, observe_eq]
  · simp only [h, false_and, if_false]

theorem execRd_next {idx : BitVec 3} (h : execRd idx s = .next t) :
    ∃ opened, t = { s with hRdata := readReg s.eng idx, tagOpen := opened } ∧
      (opened = s.tagOpen ∨ s.eng.status = .done ∧ opened = []) := by
  rw [execRd_eq] at h
  refine ⟨_, (Host.Outcome.next.inj h).symm, ?_⟩
  split
  · exact .inr ⟨And.right ‹_›, rfl⟩
  · exact .inl rfl

/-! ### The micro-operations -/

theorem execUSubkeyL_next (h : execUSubkeyL s = .next t) :
    (s.eng.encPend = false ∧ t = issue .l { s with eng := { s.eng with l := zero16 } }) ∨
    (s.eng.encPend = true ∧ ∃ r, s.encRsp = some r ∧
      t = { s with eng := { setEncReg s.eng r with encPend := false, phase := .subkeyK1 }, encRsp := none }) := by
  unfold execUSubkeyL at h
  split at h
  · split at h
    · cases h
    · obtain ⟨r, hr, rfl⟩ := takeAnswer_some ‹_›
      exact .inr ⟨‹_›, r, hr, (Host.Outcome.next.inj h).symm⟩
  · exact .inl ⟨(Bool.not_eq_true _).mp ‹_›, (Host.Outcome.next.inj h).symm⟩

theorem execULast_next (h : execULast s = .next t) :
    s.eng.n ≠ 0 ∧ admitR s.plat (eaLast s.eng) s.eng.r.toNat = true ∧ ∃ m,
      lastBlock s.eng.flag (s.bytesAt (eaLast s.eng) s.eng.r.toNat) s.eng.k1 s.eng.k2 = some m ∧
      t = { s with eng := { s.eng with mlast := m, phase := .init } } := by
  unfold execULast at h
  split at h
  · cases h
  · split at h
    · cases h
    · obtain ⟨ha, rfl⟩ := memRead_some ‹_›
      split at h
      · cases h
      · exact ⟨‹_›, ha, _, ‹_›, (Host.Outcome.next.inj h).symm⟩

theorem execUChain_next (h : execUChain s = .next t) :
    (s.eng.encPend = true ∧ ∃ r, s.encRsp = some r ∧
      t = { s with eng := { setEncReg s.eng r with encPend := false, i := s.eng.i + 1 }, encRsp := none }) ∨
    (s.eng.encPend = false ∧ s.eng.i.toNat + 1 = s.eng.n.toNat ∧
      t = { s with eng := { s.eng with phase := .final } }) ∨
    (s.eng.encPend = false ∧ s.eng.i.toNat + 1 < s.eng.n.toNat ∧ admitR s.plat (eaBlock s.eng) 16 = true ∧
      t = issue .x { s with eng := { s.eng with x := s.eng.x ^^^ ofBytes (s.bytesAt (eaBlock s.eng) 16) } }) := by
  unfold execUChain at h
  split at h
  · split at h
    · cases h
    · obtain ⟨r, hr, rfl⟩ := takeAnswer_some ‹_›
      refine .inl ⟨‹_›, r, hr, ?_⟩
      rw [← Host.Outcome.next.inj h]
      simp
  · have hp : s.eng.encPend = false := (Bool.not_eq_true _).mp ‹_›
    split at h
    · exact .inr (.inl ⟨hp, ‹_›, (Host.Outcome.next.inj h).symm⟩)
    · split at h
      · split at h
        · cases h
        · obtain ⟨ha, rfl⟩ := memRead_some ‹_›
          exact .inr (.inr ⟨hp, ‹_›, ha, (Host.Outcome.next.inj h).symm⟩)
      · cases h

theorem execUFinal_next (h : execUFinal s = .next t) :
    (s.eng.encPend = false ∧ t = issue .x { s with eng := { s.eng with x := s.eng.x ^^^ s.eng.mlast } }) ∨
    (s.eng.encPend = true ∧ ∃ r, s.encRsp = some r ∧
      t = { s with eng := { setEncReg s.eng r with encPend := false, phase := .write }, encRsp := none }) := by
  unfold execUFinal at h
  split at h
  · split at h
    · cases h
    · obtain ⟨r, hr, rfl⟩ := takeAnswer_some ‹_›
      exact .inr ⟨‹_›, r, hr, (Host.Outcome.next.inj h).symm⟩
  · exact .inl ⟨(Bool.not_eq_true _).mp ‹_›, (Host.Outcome.next.inj h).symm⟩

theorem execUWrite_next (h : execUWrite s = .next t) :
    admitW s.plat (eaTag s.eng) 16 = true ∧
      t = { putBytes (eaTag s.eng) (blockBytes s.eng.x) s with
        eng := { s.eng with status := .done, phase := .idle } } := by
  unfold execUWrite at h
  split at h
  · cases h
  · obtain ⟨ha, rfl⟩ := memWrite_some ‹_›
    exact ⟨by simpa using ha, (Host.Outcome.next.inj h).symm⟩

end Sys2Proof.Machine
end

