-- ==== Sys2Proof/Laws/PerInstr.lean ====
section
/-! SUPPORT. Facts about each instruction as syntax, one lemma per constructor. -/

namespace Sys2Proof.Laws.TablePattern

/-- The code matches the row of spec/opcode_table.json: match and mask of a command word, the pattern `1iii` or `0iii` of a
port transaction, the `PHASE` code of a micro-operation. -/
def rowMatches (i : Instr) (c : Code) : Prop :=
  match i, c with
  | .setup _, .command w => w &&& 0x0000FFFF = 0x00000001
  | .digest _, .command w => w &&& 0x0000FFFF = 0x00000002
  | .wr _ _, .port p _ => p &&& 0b1000 = 0b1000
  | .rd _, .port p _ => p &&& 0b1000 = 0b0000
  | .uSubkeyL, .phase p => p = 0b0001
  | .uSubkeyK1, .phase p => p = 0b0010
  | .uSubkeyK2, .phase p => p = 0b0011
  | .uCount, .phase p => p = 0b0100
  | .uLast, .phase p => p = 0b0101
  | .uInit, .phase p => p = 0b0110
  | .uChain, .phase p => p = 0b0111
  | .uFinal, .phase p => p = 0b1000
  | .uWrite, .phase p => p = 0b1001
  | _, _ => False

/-- The encoder writes a code of the instruction's own row. -/
def Statement (i : Instr) : Prop := rowMatches i (encode i)

/-- A command word as a number. -/
theorem toNat_commandWord (imm : BitVec 16) (opc : BitVec 8) :
    (commandWord imm opc).toNat = imm.toNat * 2 ^ 16 + opc.toNat := by
  have h : opc.toNat < 2 ^ 8 := opc.isLt
  simp only [commandWord, BitVec.toNat_append, BitVec.toNat_ofNat, Nat.zero_mod, Nat.or_zero]
  rw [← Nat.shiftLeft_add_eq_or_of_lt h]
  simp only [Nat.shiftLeft_eq]
  omega

/-- Masking a command word to its low half leaves `RSVZ` and `OPC`. -/
theorem commandWord_low (imm : BitVec 16) (opc : BitVec 8) :
    commandWord imm opc &&& 0x0000FFFF = opc.setWidth 32 := by
  have h : opc.toNat < 2 ^ 8 := opc.isLt
  apply BitVec.eq_of_toNat_eq
  rw [BitVec.toNat_and, toNat_commandWord, show (0x0000FFFF : Word).toNat = 2 ^ 16 - 1 by decide,
    Nat.and_two_pow_sub_one_eq_mod, BitVec.toNat_setWidth]
  omega

theorem setup (cap : Handle) : Statement (.setup cap) := commandWord_low cap 0x01
theorem digest (len : BitVec 16) : Statement (.digest len) := commandWord_low len 0x02
theorem wr (idx : BitVec 3) (data : Word) : Statement (.wr idx data) := by
  simp only [Statement, rowMatches, encode]
  revert idx
  decide
theorem rd (idx : BitVec 3) : Statement (.rd idx) := by
  simp only [Statement, rowMatches, encode]
  revert idx
  decide
theorem uSubkeyL : Statement .uSubkeyL := rfl
theorem uSubkeyK1 : Statement .uSubkeyK1 := rfl
theorem uSubkeyK2 : Statement .uSubkeyK2 := rfl
theorem uCount : Statement .uCount := rfl
theorem uLast : Statement .uLast := rfl
theorem uInit : Statement .uInit := rfl
theorem uChain : Statement .uChain := rfl
theorem uFinal : Statement .uFinal := rfl
theorem uWrite : Statement .uWrite := rfl

end Sys2Proof.Laws.TablePattern
end

