-- ==== Sys2Proof/Laws/Step.lean ====
section
/-! SUPPORT. Everything one step can do, said once: which agent moved, and what its move made of the state. -/

namespace Sys2Proof.Machine

variable {s t : State}

/-- The micro-operation of a phase. -/
def phaseInstr : Phase → Option Instr
  | .idle => none
  | .subkeyL => some .uSubkeyL
  | .subkeyK1 => some .uSubkeyK1
  | .subkeyK2 => some .uSubkeyK2
  | .count => some .uCount
  | .last => some .uLast
  | .init => some .uInit
  | .chain => some .uChain
  | .final => some .uFinal
  | .write => some .uWrite

theorem decode_engineCode (s : State) :
    decode (engineCode s) = match phaseInstr s.eng.phase with
      | some i => .ok i
      | none => .error .phaseIdle := by
  cases h : s.eng.phase <;> simp [engineCode, phaseCode, decode, decodePhase, phaseInstr, h]

theorem phaseOfCode_phaseCode (p : Phase) : phaseOfCode (phaseCode p) = some p := by cases p <;> decide

/-- The engine's move is the micro-operation its phase names. -/
theorem runCode_engineCode {i : Instr} (h : phaseInstr s.eng.phase = some i) :
    runCode (engineCode s) s = exec i s := by
  simp [runCode, decode_engineCode, h]

theorem decodePort_wr (idx : BitVec 3) (d : Word) : decodePort (1#1 ++ idx) d = .wr idx d := by
  have h1 : (1#1 ++ idx).extractLsb' 3 1 = 1#1 := by revert idx; decide
  have h2 : (1#1 ++ idx).extractLsb' 0 3 = idx := by revert idx; decide
  simp [decodePort, h1, h2]

theorem decodePort_rd (idx : BitVec 3) (d : Word) : decodePort (0#1 ++ idx) d = .rd idx := by
  have h1 : (0#1 ++ idx).extractLsb' 3 1 = 0#1 := by revert idx; decide
  have h2 : (0#1 ++ idx).extractLsb' 0 3 = idx := by revert idx; decide
  simp [decodePort, h1, h2]

theorem runCode_wr (idx : BitVec 3) (d : Word) (s : State) :
    runCode (.port (1#1 ++ idx) d) s = execWr idx d s := by
  simp only [runCode, decode, decodePort_wr]
  rfl

theorem runCode_rd (idx : BitVec 3) (d : Word) (s : State) :
    runCode (.port (0#1 ++ idx) d) s = execRd idx s := by
  simp only [runCode, decode, decodePort_rd]
  rfl

/-- What a host action can do to the state it is performed in. -/
inductive HostEffect (a : HostAction) (s t : State) : Prop
  | wr (idx : BitVec 3) (d : Word) (ha : a = .wr idx d) (h : execWr idx d s = .next t)
  | rd (idx : BitVec 3) (h : execRd idx s = .next t)
  | look (e : t = { observe s with hOuts := outputs s.eng })
  | reset (e : t = resetPulse s)
  | store (x : Word) (b : Byte) (ha : a = .store x b) (space : x.toNat < 2 ^ s.plat.addrW)
      (free : isBusy s.eng = true → isMessageByte s.eng x.toNat = false ∧ isTagByte s.eng x.toNat = false)
      (closed : x.toNat ∉ s.tagOpen) (e : t = putBytes x.toNat [b] s)
  | load (b : Byte) (n : Nat) (e : t = { s with hLoad := b, free := n })

theorem hostPerform_next {a : HostAction} (h : hostPerform a s = .next t) : HostEffect a s t := by
  cases a with
  | wr idx d => exact .wr idx d rfl (by simpa [hostPerform, hostCode, runCode_wr] using h)
  | rd idx => exact .rd idx (by simpa [hostPerform, hostCode, runCode_rd] using h)
  | wait => exact .rd 1 ((runCode_rd 1 0 s).symm.trans h)
  | look => exact .look (by simpa [hostPerform, hostCode] using h.symm)
  | reset => exact .reset (by simpa [hostPerform, hostCode] using h.symm)
  | store x b =>
    simp only [hostPerform, hostCode, hostStore] at h
    split_ifs at h with h1 h2 h3
    refine .store x b rfl (by omega) (fun hb => ?_) (fun hx => ?_) (Host.Outcome.next.inj h).symm <;> simp_all
  | load x =>
    simp only [hostPerform, hostCode, hostLoad] at h
    split_ifs at h with h1 h2
    · exact .load _ _ (Host.Outcome.next.inj h).symm
    · exact .load _ s.free (Host.Outcome.next.inj h).symm

/-- What one step can do, after the turn has been taken off the list. -/
inductive Move (s t : State) : Prop
  /-- Nothing: the agent was held, or nobody had anything to do. -/
  | pass (e : t = s)
  | engine (i : Instr) (hi : phaseInstr s.eng.phase = some i) (can : engineCan s = true) (h : exec i s = .next t)
  | adapter (r : Block) (hr : adapterAnswer s = some r) (port : s.encRsp = none)
      (e : t = presentAnswer r { s with oracle := s.oracle.tail })
  | host (a : HostAction) (rest : List HostAction) (hh : s.host = a :: rest) (held : isHeld s.eng a = false)
      (h : HostEffect a { s with host := hostRest s.eng a rest } t)
  | platform (a : PlatformAction) (rest : List PlatformAction) (hp : s.platActs = a :: rest)
      (e : t = platformPerform a { s with platActs := rest })
  | reset (e : t = resetPulse s)

theorem act_next {g : Agent} (hc : canMove g s = true) (h : act g s = .next t) : Move s t := by
  cases g with
  | engine =>
    simp only [canMove] at hc
    cases hp : phaseInstr s.eng.phase with
    | none =>
      have hidle : s.eng.phase = .idle := by revert hp; cases s.eng.phase <;> simp [phaseInstr]
      simp [engineCan, hidle] at hc
    | some i => exact .engine i hp hc (by rw [← runCode_engineCode hp]; exact h)
  | adapter =>
    simp only [canMove, adapterCan, Bool.and_eq_true, Option.isNone_iff_eq_none] at hc
    simp only [act, adapterMove] at h
    split at h
    · simp_all
    · exact .adapter _ ‹_› hc.2 (Host.Outcome.next.inj h).symm
  | host =>
    simp only [canMove, hostCan] at hc
    simp only [act, hostMove] at h
    split at h
    · exact .pass (Host.Outcome.next.inj h).symm
    · rename_i a rest hh
      rw [hh] at hc
      exact .host a rest hh (by simpa using hc) (hostPerform_next h)
  | platform =>
    simp only [act, platformMove] at h
    split at h
    · exact .pass (Host.Outcome.next.inj h).symm
    · exact .platform _ _ ‹_› (Host.Outcome.next.inj h).symm
  | rst => exact .reset (Host.Outcome.next.inj h).symm

/-- One step: the turn is taken off the list, if there is one, and then a move is made. -/
theorem step_next (h : step s = .next t) : ∃ turns, Move { s with turns := turns } t := by
  unfold step stepOf at h
  split at h
  · rename_i g rest _
    refine ⟨rest, ?_⟩
    unfold takeTurn at h
    split at h
    · exact act_next ‹_› h
    · exact .pass (Host.Outcome.next.inj h).symm
  · refine ⟨s.turns, ?_⟩
    unfold freeRun at h
    split_ifs at h with h1 h2 h3 h4 h5 h6
    · exact act_next h1 h
    · exact act_next h2 h
    · exact act_next h3 h
    · exact act_next h4 h
    · exact .pass (Host.Outcome.next.inj h).symm

/-! ### Running the default order -/

/-- A micro-operation that answers a next state had its memory access served, so the engine can move unless it waits for an
answer. -/
theorem engineCan_of_next {i : Instr} (hi : phaseInstr s.eng.phase = some i) (h : exec i s = .next t)
    (hr : s.eng.encPend = true → s.encRsp ≠ none) : engineCan s = true := by
  have hs : accessServed s = true ∧ s.eng.phase ≠ .idle := by
    cases hp : s.eng.phase <;> rw [hp] at hi <;> cases hi <;> simp only [accessServed, hp]
    case last => exact ⟨(execULast_next h).2.1, by decide⟩
    case chain =>
      refine ⟨?_, by decide⟩
      rcases execUChain_next h with ⟨h1, _⟩ | ⟨_, h2, _⟩ | ⟨_, _, h3, _⟩
      · simp [h1]
      · simp [h2]
      · simp [h3]
    case write => exact ⟨(execUWrite_next h).1, by decide⟩
    all_goals exact ⟨trivial, by decide⟩
  have hw : (!s.eng.encPend || s.encRsp.isSome) = true := by
    cases hpend : s.eng.encPend
    · rfl
    · simpa [Option.isSome_iff_ne_none] using hr hpend
  simp [engineCan, hs.1, hs.2, hw]

theorem step_of_engine {i : Instr} (ht : s.turns = []) (hc : engineCan s = true)
    (hi : phaseInstr s.eng.phase = some i) : step s = exec i s := by
  have h : step s = act .engine s := by simp [step, stepOf, ht, freeRun, canMove, hc]
  rw [h, act, runCode_engineCode hi]

theorem step_of_adapter {r : Block} (ht : s.turns = []) (hc : engineCan s = false) (hp : s.encRsp = none)
    (hr : adapterAnswer s = some r) : step s = .next (presentAnswer r { s with oracle := s.oracle.tail }) := by
  have h : step s = act .adapter s := by simp [step, stepOf, ht, freeRun, canMove, hc, adapterCan, hr, hp]
  rw [h, act, adapterMove, hr]

end Sys2Proof.Machine
end

