-- ==== Sys2Proof/Tests/Slice0.lean ====
section
/-! SUPPORT. Tests of the model's own: the ranges of script lines, words written out from spec/30_encoding.md, single steps
against spec/95_test_vectors.md, and for every obligation with hypotheses a state that meets them. -/

namespace Sys2Proof.Tests

open Sys2Proof.Machine

/-! ### Well-formedness: one ill-formed line for each check -/

theorem test_wf_refuses_handle : (ScriptLine.setup 65536).wf = false := by decide
theorem test_wf_refuses_length : (ScriptLine.digest 65536).wf = false := by decide
theorem test_wf_refuses_data : (ScriptLine.wr .MSG_ADDR (2 ^ 32)).wf = false := by decide
theorem test_wf_refuses_setmsg : (ScriptLine.setmsg (2 ^ 32)).wf = false := by decide
theorem test_wf_refuses_settag : (ScriptLine.settag (2 ^ 32)).wf = false := by decide
theorem test_wf_refuses_cmac_msg : (ScriptLine.cmac (2 ^ 32) 0 0).wf = false := by decide
theorem test_wf_refuses_cmac_length : (ScriptLine.cmac 0 65536 0).wf = false := by decide
theorem test_wf_refuses_cmac_tag : (ScriptLine.cmac 0 0 (2 ^ 32)).wf = false := by decide
theorem test_ill_formed_line_is_no_action : assemble (.digest 65536) = none := by decide
theorem test_wf_accepts_the_bounds :
    [ScriptLine.setup 65535, .digest 65535, .wr .CTX (2 ^ 32 - 1), .cmac (2 ^ 32 - 1) 65535 0].all ScriptLine.wf = true := by
  decide
/-- Programs 2 and 3 of 95_test_vectors.md, section 5. -/
theorem test_assemble_cmac : assemble (.cmac 0x1000 40 0x2000) =
    some [.wr 2 0x00001000, .wr 3 0x00002000, .wr 0 0x00280002, .wait] := by decide
theorem test_assemble_setup : assemble (.setup 7) = some [.wr 0 0x00070001] := by decide

/-! ### Decoding: words written out from R91, R94 to R97 -/

theorem test_decode_setup :
    decode (.command 0b0000000000000001_00000000_00000001) = .ok (.setup 1) := by rfl
theorem test_decode_setup_last :
    decode (.command 0b1111111111111111_00000000_00000001) = .ok (.setup 65535) := by rfl
theorem test_decode_digest :
    decode (.command 0b0000000000101000_00000000_00000010) = .ok (.digest 40) := by rfl
theorem test_decode_wr : decode (.port 0b1011 0x2800) = .ok (.wr 3 0x2800) := by rfl
theorem test_decode_rd : decode (.port 0b0100 0) = .ok (.rd 4) := by rfl
theorem test_decode_uSubkeyL : decode (.phase 0b0001) = .ok .uSubkeyL := by rfl
theorem test_decode_uSubkeyK1 : decode (.phase 0b0010) = .ok .uSubkeyK1 := by rfl
theorem test_decode_uSubkeyK2 : decode (.phase 0b0011) = .ok .uSubkeyK2 := by rfl
theorem test_decode_uCount : decode (.phase 0b0100) = .ok .uCount := by rfl
theorem test_decode_uLast : decode (.phase 0b0101) = .ok .uLast := by rfl
theorem test_decode_uInit : decode (.phase 0b0110) = .ok .uInit := by rfl
theorem test_decode_uChain : decode (.phase 0b0111) = .ok .uChain := by rfl
theorem test_decode_uFinal : decode (.phase 0b1000) = .ok .uFinal := by rfl
theorem test_decode_uWrite : decode (.phase 0b1001) = .ok .uWrite := by rfl
/-- The illegal words of 95_test_vectors.md, section 6.1. -/
theorem test_decode_illegal_opc : decode (.command 0x000000ff) = .error .reservedOpc := by rfl
theorem test_decode_illegal_rsvz : decode (.command 0x00018001) = .error .reservedBits := by rfl
theorem test_decode_idle : decode (.phase 0b0000) = .error .phaseIdle := by rfl
theorem test_decode_reserved_phase : decode (.phase 0b1010) = .error .phaseReserved := by rfl
theorem test_table_words :
    [(32, 0x00010001), (32, 0x00000000), (8, 0b0001), (8, 0b1001), (8, 0b1010), (8, 0b0000)].map
      (fun p => decodeTableWord p.1 p.2) =
    [some (.setup 1), none, some .uSubkeyL, some .uWrite, some (.wr 2 0), some (.rd 0)] := by decide

/-! ### The platform of 95_test_vectors.md, section 5, and states on it -/

/-- AES-128 under the key of section 1, at the blocks of V3. -/
def aes : Cipher :=
  ⟨[(0, 0x7df76b0c1ab899b33e42f047b91b546f),
    (0x6bc1bee22e409f96e93d7e117393172a, 0x3ad77bb40d7a3660a89ecaf32466ef97),
    (0x94faf1e313799afc3629a55f61c961c6, 0xb148c17f309ee692287ae57cf12add49),
    (0x765d7109f920644f5171246215478c72, 0xdfa66747de9ae63030ca32611497c827)], 0⟩

def platform : Platform := ⟨31, [⟨0x1000, 0x2000, true, true⟩], [(1, some aes), (7, none)]⟩

/-- Program 2 before its `DIGEST 40`. -/
def ready : State :=
  { State.reset with
    eng := { Engine.reset with ctxValid := true, ctxCap := 1, msgAddr := 0x1000, tagAddr := 0x2000 }
    plat := platform
    mem := Memory.writeBytes [] 0x1000
      (blockBytes 0x6bc1bee22e409f96e93d7e117393172a ++ blockBytes 0xae2d8a571e03ac9c9eb76fac45af8e51 ++
        (blockBytes 0x30c81c46a35ce4110000000000000000).take 8) }

/-- Program 2 at a phase. -/
def running (p : Phase) : State :=
  { ready with
    eng := { ready.eng with
      status := .busy, phase := p, msgBase := 0x1000, tagBase := 0x2000, len := 40, n := 3, flag := false, r := 8 }
    tagOpen := openTag 0x2000 [] }

/-- Program 2 at its step 13, an answer awaited. -/
def waiting : State :=
  { running .final with
    eng := { (running .final).eng with x := 0x765d7109f920644f5171246215478c72, encPend := true, encDst := .x, i := 2 }
    encReq := some ⟨1, 0x765d7109f920644f5171246215478c72⟩ }

/-- Program 2 with an engine register file changed. -/
def engOf (s : State) (f : Engine → Engine) : State := { s with eng := f s.eng }

/-- The next state, if there is one. -/
def nextOf (o : Host.Outcome State Fault Refusal) : Option State :=
  match o with
  | .next t => some t
  | _ => none

/-- What `RD STATUS` returns after an instruction. -/
def statusAfter (i : Instr) (s : State) : Option Word := (nextOf (exec i s)).map (fun t => statusWord t.eng)

/-! ### Single instructions -/

/-- Section 6.2: `SETUP 65535` gives `CTX 0x8000ffff`. -/
theorem test_setup_ctx : (nextOf (exec (.setup 65535) ready)).map (fun t => ctxWord t.eng) = some 0x8000ffff := by decide
/-- Section 6.3: after an error `SETUP 1` gives `STATUS 0`. -/
theorem test_setup_clears_error :
    statusAfter (.setup 1) (engOf ready (fun e => { e with status := .error, err := .msg })) = some 0 := by decide
/-- Program 2, step 0. -/
theorem test_digest_starts :
    (nextOf (exec (.digest 40) ready)).map (fun t => (statusWord t.eng, t.eng.msgBase, t.eng.tagBase, t.eng.len)) =
      some (0x011, 0x1000, 0x2000, 40) := by decide
/-- Section 6.3 and program 1: the order of the checks. -/
theorem test_digest_errors :
    [statusAfter (.digest 5) { State.reset with plat := platform },
     statusAfter (.digest 5) (engOf ready (fun e => { e with ctxCap := 0 })),
     statusAfter (.digest 9) (engOf ready (fun e => { e with msgAddr := 0x2ff8, tagAddr := 0 })),
     statusAfter (.digest 8) (engOf ready (fun e => { e with msgAddr := 0x2ff8, tagAddr := 0x2ff1 }))] =
    [some 0x103, some 0x203, some 0x303, some 0x403] := by decide
/-- Section 6.3: `DIGEST 5` with `RSVZ = 1`. -/
theorem test_wr_illegal_command : statusAfter (.wr 0 0x00050102) State.reset = some 0x803 := by decide
/-- Program 3, lines 5 and 6: `TAG_ADDR` is taken while `BUSY`, `TAG_BASE` stays. -/
theorem test_wr_tag_addr_while_busy :
    (nextOf (exec (.wr 3 0x2800) (running .chain))).map (fun t => (readReg t.eng 3, t.eng.tagBase)) =
      some (0x2800, 0x2000) := by decide
/-- Section 6.2. -/
theorem test_rd_words :
    (nextOf (exec (.rd 1) (running .last))).map (·.hRdata) = some 0x51 ∧
    (nextOf (exec (.rd 4) ready)).map (·.hRdata) = some 0x80000001 := by decide
theorem test_rd_unnamed : (nextOf (exec (.rd 7) ready)).map (·.hRdata) = some 0 := by decide
/-- Program 2, steps 1 and 2. -/
theorem test_subkeyL_request :
    (nextOf (exec .uSubkeyL (running .subkeyL))).map (fun t => (t.encReq, t.eng.encPend, statusWord t.eng)) =
      some (some ⟨1, 0⟩, true, 0x011) := by decide
theorem test_subkeyL_answer :
    (nextOf (exec .uSubkeyL { engOf (running .subkeyL) (fun e => { e with encPend := true, encDst := .l }) with
      encRsp := some 0x7df76b0c1ab899b33e42f047b91b546f })).map (fun t => (t.eng.l, statusWord t.eng)) =
      some (0x7df76b0c1ab899b33e42f047b91b546f, 0x021) := by decide
/-- Program 2, steps 3 and 4. -/
theorem test_subkeyK1 :
    (nextOf (exec .uSubkeyK1 (engOf (running .subkeyK1) (fun e => { e with l := 0x7df76b0c1ab899b33e42f047b91b546f })))).map
      (·.eng.k1) = some 0xfbeed618357133667c85e08f7236a8de := by decide
theorem test_subkeyK2 :
    (nextOf (exec .uSubkeyK2 (engOf (running .subkeyK2) (fun e => { e with k1 := 0xfbeed618357133667c85e08f7236a8de })))).map
      (·.eng.k2) = some 0xf7ddac306ae266ccf90bc11ee46d513b := by decide
/-- Section 2.2: the reduction at the first doubling only, and at both. -/
theorem test_dbl_rows :
    [0x80808080808080808080808080808080, 0x0123456789abcdef0123456789abcdef, 0xc0000000000000000000000000000000].map dbl =
    [0x01010101010101010101010101010187, 0x02468acf13579bde02468acf13579bde, 0x80000000000000000000000000000087] := by
  decide
/-- The table of 43_mac_engine.md R167. -/
theorem test_count_table :
    [0, 1, 15, 16, 17, 31, 32, 33, 40, 64, 65520, 65521, 65535].map count =
    [(1, false, 0), (1, false, 1), (1, false, 15), (1, true, 16), (2, false, 1), (2, false, 15), (2, true, 16),
     (3, false, 1), (3, false, 8), (4, true, 16), (4095, true, 16), (4096, false, 1), (4096, false, 15)] := by decide
/-- `LEN = 65535` fits in `N` and `R`. -/
theorem test_ucount_longest :
    (nextOf (exec .uCount (engOf (running .count) (fun e => { e with len := 65535 })))).map
      (fun t => (t.eng.n, t.eng.flag, t.eng.r)) = some (4096, false, 15) := by decide
/-- Program 2, step 6. -/
theorem test_ulast_padded :
    (nextOf (exec .uLast (engOf (running .last) (fun e => { e with k2 := 0xf7ddac306ae266ccf90bc11ee46d513b })))).map
      (·.eng.mlast) = some 0xc715b076c9be82dd790bc11ee46d513b := by decide
/-- V2. -/
theorem test_ulast_complete :
    (nextOf (exec .uLast (engOf (running .last) (fun e =>
      { e with len := 16, n := 1, flag := true, r := 16, k1 := 0xfbeed618357133667c85e08f7236a8de })))).map
      (·.eng.mlast) = some 0x902f68fa1b31acf095b89e9e01a5bff4 := by decide
/-- Program 2, step 7. -/
theorem test_uinit :
    (nextOf (exec .uInit (engOf (running .init) (fun e => { e with x := 5, i := 9 })))).map
      (fun t => (t.eng.x, t.eng.i, statusWord t.eng)) = some (0, 0, 0x071) := by decide
/-- Program 2, step 10, and step 12. -/
theorem test_uchain_block :
    (nextOf (exec .uChain (engOf (running .chain) (fun e => { e with i := 1, x := 0x3ad77bb40d7a3660a89ecaf32466ef97 })))).map
      (fun t => (t.eng.x, t.encReq, t.eng.i)) =
      some (0x94faf1e313799afc3629a55f61c961c6, some ⟨1, 0x94faf1e313799afc3629a55f61c961c6⟩, 1) := by decide
theorem test_uchain_exit : statusAfter .uChain (engOf (running .chain) (fun e => { e with i := 2 })) = some 0x081 := by
  decide
/-- Program 2, steps 13 and 14. -/
theorem test_ufinal_request :
    (nextOf (exec .uFinal (engOf (running .final) (fun e =>
      { e with x := 0xb148c17f309ee692287ae57cf12add49, mlast := 0xc715b076c9be82dd790bc11ee46d513b })))).map (·.eng.x) =
      some 0x765d7109f920644f5171246215478c72 := by decide
theorem test_ufinal_answer :
    (nextOf (exec .uFinal { waiting with encRsp := some 0xdfa66747de9ae63030ca32611497c827 })).map
      (fun t => (t.eng.x, statusWord t.eng)) = some (0xdfa66747de9ae63030ca32611497c827, 0x091) := by decide
/-- Program 2, step 15: the tag as TAC gives it, byte 0 first. -/
theorem test_uwrite :
    (nextOf (exec .uWrite (engOf (running .write) (fun e => { e with x := 0xdfa66747de9ae63030ca32611497c827 })))).map
      (fun t => (t.bytesAt 0x2000 16, statusWord t.eng)) =
    some ([0xdf, 0xa6, 0x67, 0x47, 0xde, 0x9a, 0xe6, 0x30, 0x30, 0xca, 0x32, 0x61, 0x14, 0x97, 0xc8, 0x27], 0x002) := by
  decide
/-- The adapter's turn answers with the attached cipher (program 2, step 14). -/
theorem test_adapter_answers :
    (nextOf (step waiting)).map (fun t => (t.encRsp, t.encReq)) =
      some (some 0xdfa66747de9ae63030ca32611497c827, none) := by decide
/-- Section 6.4. -/
theorem test_admit_top :
    [admitW Platform.reset 0xfffffff0 16, admitW Platform.reset 0xfffffff1 16, admitR Platform.reset 0xffffffff 0] =
      [true, false, true] := by decide
/-- A placed instruction is the first that runs. -/
theorem test_fetch_command :
    (nextOf (step (State.reset.withFetchWord 32 0x00280002))).map (fun t => statusWord t.eng) = some 0x103 := by decide
theorem test_fetch_phase :
    (nextOf (step (State.reset.withFetchWord 8 0b0111))).map (fun t => statusWord t.eng) = some 0x081 := by decide

/-! ### States that meet the hypotheses of the obligations -/

/-- Each clause of the round trip, at the ends of its ranges. -/
theorem witness_EncodeGivesBackTheDecodedCode :
    decode (.command 0xFFFF0001) = .ok (.setup 65535) ∧ decode (.command 2) = .ok (.digest 0) ∧
    decode (.port 0b1111 0xFFFFFFFF) = .ok (.wr 7 0xFFFFFFFF) ∧ decode (.port 0b0111 5) = .ok (.rd 7) ∧
    decode (.phase 1) = .ok .uSubkeyL ∧ decode (.phase 9) = .ok .uWrite := ⟨rfl, rfl, rfl, rfl, rfl, rfl⟩

theorem witness_CommandWordsDecodeByTheOpcodeMap :
    ((65535 : BitVec 16).toNat = (0xFFFF0001 : Word).toNat / 65536 ∧ (0xFFFF0001 : Word).toNat % 65536 = 1) ∧
    ((0 : BitVec 16).toNat = (2 : Word).toNat / 65536 ∧ (2 : Word).toNat % 65536 = 2) := by decide

theorem witness_IllegalWordsOnlyReportAnError :
    ((0x00000003 : Word).toNat % 256 ≠ 1 ∧ (0x00000003 : Word).toNat % 256 ≠ 2) ∧
    (0x00000102 : Word).toNat / 256 % 256 ≠ 0 ∧ ready.eng.status ≠ .busy := by decide

theorem witness_PhaseCodesNameTheMicroOperations : 10 ≤ (10 : BitVec 4).toNat ∧ 10 ≤ (15 : BitVec 4).toNat := by decide

theorem witness_ShiftLeftDoublesABigEndianBuffer :
    ([0x01, 0xff, 0x80] : List Byte).length = 3 ∧ 0 < 3 ∧ shl1 [0x01, 0xff, 0x80] = [0x03, 0xff, 0x00] := by decide

theorem witness_BlocksAndSixteenByteBuffersAgree : (blockBytes 1).length = 16 := by decide

theorem witness_DoublingShiftsAndReduces :
    blockByte (dbl 0xc0000000000000000000000000000000) 0 = 0x80 ∧
    blockByte (dbl 0xc0000000000000000000000000000000) 14 = 0 ∧
    blockByte (dbl 0xc0000000000000000000000000000000) 15 = 0x87 := by decide

theorem witness_DoublingIsOneToOne : dbl 0x80 = dbl (0x40 + 0x40) := by decide

theorem witness_XorActsOnEachByteAlone :
    (blockBytes 1).length = (blockBytes 2).length ∧ 15 < (blockBytes 1).length := by decide

theorem witness_PaddingPlacesOneMarkAndZeros :
    ([] : List Byte).length ≤ 15 ∧ (List.replicate 15 (0xa0 : Byte)).length ≤ 15 ∧
    blockByte (pad []) 0 = 0x80 ∧ blockByte (pad (List.replicate 15 0xa0)) 14 = 0xa0 ∧
    blockByte (pad (List.replicate 15 0xa0)) 15 = 0x80 := by decide

theorem witness_CountGivesBlocksFlagAndRest :
    ((16 ≤ 65535 ∧ 16 ≠ 0 ∧ 16 % 16 = 0) ∧ (65520 ≤ 65535 ∧ 65520 % 16 = 0)) ∧
    ((1 ≤ 65535 ∧ 1 % 16 ≠ 0) ∧ (65535 ≤ 65535 ∧ 65535 % 16 ≠ 0)) := by decide

theorem witness_MemoryReadsBackWhatWasWritten :
    ready.mem.wf ∧ 0x101f < 0x1020 ∧ 0x1020 + (List.replicate 16 (0 : Byte)).length ≤ 0x1030 ∧
    (resetPulse (running .chain)).mem = ready.mem := by decide

theorem witness_AdmissionAsksEveryByteOfTheRange :
    admitR platform 0x1000 1 = true ∧ admitR platform 0x2ff0 16 = true ∧ admitW platform 0x2ff1 16 = false ∧
    Platform.addrW ⟨0, [], []⟩ = 1 ∧ platform.addrW = 32 := by decide

theorem witness_EveryMessageByteIsReadOnce :
    Engine.counted { Engine.reset with len := 0, n := 1, flag := false, r := 0 } ∧
    Engine.counted { Engine.reset with len := 16, n := 1, flag := true, r := 16 } ∧
    Engine.counted { Engine.reset with len := 65535, n := 4096, flag := false, r := 15 } := by
  simp only [Engine.counted]; decide

/-- The digest is done and its `DONE` not yet observed. -/
def unobserved : State := engOf (running .idle) (fun e => { e with status := .done })

/-- Every index of a port transaction falls under exactly one clause about the data; the list of tag bytes is emptied by a
read that sees `DONE`, and kept by another read then and by a read of `STATUS` before. -/
theorem witness_ReadsReturnTheRegisterAndChangeNothing :
    (∀ idx : BitVec 3, idx = 1 ∨ idx = 2 ∨ idx = 3 ∨ idx = 4 ∨ (idx = 0 ∨ 5 ≤ idx.toNat)) ∧
    (unobserved.eng.status = .done ∧ unobserved.tagOpen ≠ [] ∧ (2 : BitVec 3) ≠ 1) ∧
    ((running .chain).eng.status ≠ .done ∧ (running .chain).tagOpen ≠ []) := by decide

theorem witness_HostWritesSetAnAddressOrAreIgnored :
    ((1 : BitVec 3) = 1 ∨ 4 ≤ (1 : BitVec 3).toNat) ∧ 4 ≤ (4 : BitVec 3).toNat ∧ 4 ≤ (7 : BitVec 3).toNat := by decide

theorem witness_CommandsAreHeldWhileBusy :
    let s := { running .chain with host := [.wr 0 0x00100002], turns := [.host] }
    s.eng.status = .busy ∧ s.host = .wr 0 0x00100002 :: [] ∧ s.turns = .host :: [] := by decide

theorem witness_AcceptedWordsRunAsTheirCommand :
    ready.eng.status ≠ .busy ∧ decode (.command 0x00280002) = .ok (.digest 40) ∧
    decode (.command 0x00010001) = .ok (.setup 1) := ⟨by decide, rfl, rfl⟩

theorem witness_SetupStoresTheHandleUnchecked : ready.eng.status ≠ .busy := by decide

/-- The tag buffer right behind the message (20_memory.md R80), and an empty message at the tag buffer itself. -/
theorem witness_AdmittedDigestStarts :
    (let s := engOf ready (fun e => { e with tagAddr := 0x1028 })
     s.eng.status ≠ .busy ∧ s.eng.ctxValid = true ∧ s.eng.ctxCap ≠ 0 ∧
     admitR s.plat s.eng.msgAddr.toNat 40 = true ∧ admitW s.plat s.eng.tagAddr.toNat 16 = true ∧
     ∀ j, j < 40 → ∀ k, k < 16 → s.eng.msgAddr.toNat + j ≠ s.eng.tagAddr.toNat + k) ∧
    (let s := engOf ready (fun e => { e with tagAddr := 0x1000 })
     admitR s.plat s.eng.msgAddr.toNat 0 = true ∧ admitW s.plat s.eng.tagAddr.toNat 16 = true) := by decide

/-- The word `0x00050102`, and for each code of `DIGEST` a state in which exactly that check is the first to fail. -/
theorem witness_TheFirstErrorInOrderIsReported :
    decode (.command 0x00050102) = .error .reservedBits ∧
    (State.reset.eng.status ≠ .busy ∧ State.reset.eng.ctxValid = false) ∧
    (let s := engOf ready (fun e => { e with ctxCap := 0 })
     s.eng.status ≠ .busy ∧ s.eng.ctxValid = true ∧ s.eng.ctxCap = 0) ∧
    (let s := engOf ready (fun e => { e with msgAddr := 0x2ff8 })
     s.eng.ctxValid = true ∧ s.eng.ctxCap ≠ 0 ∧ admitR s.plat s.eng.msgAddr.toNat 9 = false) ∧
    (let s := engOf ready (fun e => { e with msgAddr := 0x2ff8, tagAddr := 0x2ff1 })
     s.eng.ctxValid = true ∧ s.eng.ctxCap ≠ 0 ∧ admitR s.plat s.eng.msgAddr.toNat 8 = true ∧
     admitW s.plat s.eng.tagAddr.toNat 16 = false) := ⟨rfl, by decide, by decide, by decide, by decide⟩

/-- The two ends: the tag buffer begins at the last message byte, and ends at the first one. -/
theorem witness_OverlappingDigestIsRefused :
    (let s := engOf ready (fun e => { e with tagAddr := 0x1027 })
     s.eng.status ≠ .busy ∧ s.eng.ctxValid = true ∧ s.eng.ctxCap ≠ 0 ∧
     admitR s.plat s.eng.msgAddr.toNat 40 = true ∧ admitW s.plat s.eng.tagAddr.toNat 16 = true ∧
     39 < 40 ∧ s.eng.msgAddr.toNat + 39 = s.eng.tagAddr.toNat + 0) ∧
    (let s := engOf ready (fun e => { e with msgAddr := 0x100f, tagAddr := 0x1000 })
     s.eng.msgAddr.toNat + 0 = s.eng.tagAddr.toNat + 15) := by decide

theorem witness_ErrorEntryChangesNothingElse :
    nextOf (exec (.digest 5) State.reset) = some (raise .ctx State.reset) ∧ State.reset.eng.status ≠ .error ∧
    (raise .ctx State.reset).eng.status = .error := by decide

/-- A micro-operation's answer step, for each register it may go to. -/
theorem witness_SubkeyLSendsTheZeroBlock :
    (running .subkeyL).eng.encPend = false ∧
    (let s := { engOf (running .subkeyL) (fun e => { e with encPend := true, encDst := .l }) with encRsp := some 5 }
     s.eng.encPend = true ∧ s.eng.encDst = .l ∧ s.encRsp = some 5) := by decide

theorem witness_LastBlockTakesTheRightSubkey :
    (let s := running .last
     s.eng.n ≠ 0 ∧ admitR s.plat (s.eng.msgBase.toNat + 16 * (s.eng.n.toNat - 1)) s.eng.r.toNat = true ∧
     s.eng.flag = false ∧ s.eng.r.toNat ≤ 15) ∧
    (let s := engOf (running .last) (fun e => { e with len := 0, n := 1, r := 0 })
     s.eng.n ≠ 0 ∧ admitR s.plat (s.eng.msgBase.toNat + 16 * (s.eng.n.toNat - 1)) s.eng.r.toNat = true ∧
     s.eng.flag = false) ∧
    (let s := engOf (running .last) (fun e => { e with len := 16, n := 1, flag := true, r := 16 })
     s.eng.n ≠ 0 ∧ admitR s.plat (s.eng.msgBase.toNat + 16 * (s.eng.n.toNat - 1)) s.eng.r.toNat = true ∧
     s.eng.flag = true ∧ s.eng.r.toNat = 16) := by decide

/-- The three steps of `U_CHAIN`: with `I = 2 = N - 1`, with `I = 1`, with an answer on the port. -/
theorem witness_ChainTakesBlocksInOrder :
    (let s := engOf (running .chain) (fun e => { e with i := 2 })
     s.eng.encPend = false ∧ s.eng.i.toNat + 1 = s.eng.n.toNat) ∧
    (let s := engOf (running .chain) (fun e => { e with i := 1 })
     s.eng.encPend = false ∧ s.eng.i.toNat + 1 < s.eng.n.toNat ∧
     admitR s.plat (s.eng.msgBase.toNat + 16 * s.eng.i.toNat) 16 = true) ∧
    (let s := { engOf (running .chain) (fun e => { e with encPend := true, encDst := .x }) with encRsp := some 5 }
     s.eng.encPend = true ∧ s.eng.encDst = .x ∧ s.encRsp = some 5) := by decide

theorem witness_FinalSendsTheLastBlock :
    (running .final).eng.encPend = false ∧
    (let s := { waiting with encRsp := some 5 }
     s.eng.encPend = true ∧ s.eng.encDst = .x ∧ s.encRsp = some 5) := by decide

theorem witness_WriteStoresTheTagAndNothingElse :
    (let s := running .write
     s.mem.wf ∧ admitW s.plat s.eng.tagBase.toNat 16 = true) ∧
    (let s := engOf (running .write) (fun e => { e with tagBase := 0x2ff0 })
     admitW s.plat s.eng.tagBase.toNat 16 = true) := by decide

/-- One next state of each kind of instruction, none with a transaction in flight; the answer of one in flight. -/
theorem witness_RegistersAreWrittenOnlyByTheirWriters :
    [exec (.setup 1) ready, exec (.digest 40) ready, exec (.wr 3 5) ready, exec (.rd 1) ready,
      exec .uCount (running .count), exec .uLast (running .last), exec .uInit (running .init),
      exec .uChain (running .chain), exec .uWrite (running .write),
      exec .uFinal { waiting with encRsp := some 5 }].all (fun o => (nextOf o).isSome) = true ∧
    ready.eng.encPend = false ∧ (running .chain).eng.encPend = false ∧ waiting.eng.encDst = .x := by decide

theorem witness_OtherInstructionsLeaveMemoryAlone :
    (nextOf (exec .uLast (running .last))).isSome = true ∧ Instr.uLast ≠ .uWrite := by decide

/-- The platform serves nothing below 0x1000 (it has taken the memory away: `remap`). -/
theorem witness_UnservedAccessesStopTheEngine :
    (let s := { engOf (running .last) (fun e => { e with msgBase := 0 }) with turns := [.engine] }
     s.eng.n ≠ 0 ∧ s.eng.encPend = false ∧ s.eng.phase = .last ∧ admitR s.plat (eaLast s.eng) s.eng.r.toNat = false ∧
     s.turns = .engine :: []) ∧
    (let s := { engOf (running .chain) (fun e => { e with msgBase := 0 }) with host := [.reset] }
     s.eng.encPend = false ∧ s.eng.phase = .chain ∧ s.eng.i.toNat + 1 < s.eng.n.toNat ∧
     admitR s.plat (eaBlock s.eng) 16 = false ∧ s.turns = [] ∧ s.encReq = none ∧ s.oracle = [] ∧
     s.host = .reset :: []) ∧
    (let s := engOf (running .write) (fun e => { e with tagBase := 0xff1 })
     s.eng.encPend = false ∧ s.eng.phase = .write ∧ admitW s.plat (eaTag s.eng) 16 = false ∧ s.turns = [] ∧
     s.encReq = none ∧ s.oracle = [] ∧ s.host = [] ∧ s.platActs = []) := by decide

theorem witness_TheAttachedCipherAnswersTheRequest :
    let s := { waiting with turns := [.adapter] }
    s.turns = .adapter :: [] ∧ s.oracle = [] ∧ s.eng.encPend = true ∧ s.encRsp = none ∧
    s.encReq = some ⟨1, 0x765d7109f920644f5171246215478c72⟩ ∧ s.plat.adapter 1 = some aes := by decide

/-- Program 5, line 4: the answer to a request that reset abandoned. -/
theorem witness_AnswersNotAwaitedAreIgnored :
    let s := { ready with turns := [.adapter], encReq := some ⟨1, 0⟩ }
    s.turns = .adapter :: [] ∧ s.eng.encPend = false ∧
    nextOf (step s) = some { s with turns := [], encReq := none } := by decide

/-- A digest with a transaction in flight meets the invariant. -/
theorem inv_waiting : waiting.Inv where
  busy_iff := by decide
  err_iff := by decide
  pend_phase := by decide
  pend_dst := by decide
  pend_request := by intro _ q hq; exact (Option.some.inj hq).symm
  pend_open := by decide
  rsp_pend := by decide
  counted := fun _ => ⟨by decide, by decide, by decide⟩
  i_range := by decide
  i_pend := by decide
  busy_ctx := by decide
  busy_apart := by decide
  busy_room := by decide
  busy_open := by decide
  addr_width := by decide
  mem_wf := by decide
  mem_space := by decide
  torn_space := by decide

/-- A digest between its transactions meets the invariant. -/
theorem inv_running (p : Phase) (h : p ≠ .idle) : (running p).Inv where
  busy_iff := ⟨fun _ => h, fun _ => rfl⟩
  err_iff := inv_waiting.err_iff
  pend_phase := by intro hp; exact absurd hp Bool.false_ne_true
  pend_dst := by intro hp; exact absurd hp Bool.false_ne_true
  pend_request := by intro hp; exact absurd hp Bool.false_ne_true
  pend_open := by intro hp; exact absurd hp Bool.false_ne_true
  rsp_pend := by intro hp; exact absurd rfl hp
  counted := by intro _; cases p <;> (simp only [Engine.counted]; decide)
  i_range := fun _ => (by decide : (0 : BitVec 13).toNat + 1 ≤ (3 : BitVec 13).toNat)
  i_pend := by intro _ hp; exact absurd hp Bool.false_ne_true
  busy_ctx := fun _ => inv_waiting.busy_ctx rfl
  busy_apart := fun _ => inv_waiting.busy_apart rfl
  busy_room := fun _ => inv_waiting.busy_room rfl
  busy_open := fun _ => inv_waiting.busy_open rfl
  addr_width := inv_waiting.addr_width
  mem_wf := inv_waiting.mem_wf
  mem_space := inv_waiting.mem_space
  torn_space := inv_waiting.torn_space

/-- Another agent moves while the answer is awaited: the host reads `STATUS`; or reset ends the wait. -/
theorem witness_TheEngineIsHeldUntilTheAnswer :
    (waiting.Inv ∧ waiting.eng.encPend = true ∧ waiting.encRsp = none) ∧
    (nextOf (step { waiting with host := [.rd 1], turns := [.host] })).map (·.hRdata) = some 0x81 ∧
    (nextOf (step { waiting with turns := [.rst] })).map (·.eng.status) = some .idle := ⟨⟨inv_waiting, rfl, rfl⟩, by decide, by decide⟩

/-- Program 6: handle 7 has nothing attached. -/
theorem witness_AnUnattachedHandleLeavesTheEngineStuck :
    ∃ s : State, s.Inv ∧ s.eng.encPend = true ∧ s.encRsp = none ∧ s.oracle = [] ∧ s.turns = [] ∧ s.host = [] ∧
      s.platActs = [] ∧ s.plat.adapter s.eng.ctxCap = none := by
  refine ⟨{ engOf waiting (fun e => { e with ctxCap := 7 }) with
    encReq := some ⟨7, 0x765d7109f920644f5171246215478c72⟩ }, ?_, rfl, rfl, rfl, rfl, rfl, rfl, by decide⟩
  have h := inv_waiting
  exact {
    busy_iff := h.busy_iff, err_iff := h.err_iff, pend_phase := h.pend_phase, pend_dst := h.pend_dst,
    pend_request := by intro _ q hq; exact (Option.some.inj hq).symm
    pend_open := by decide, rsp_pend := h.rsp_pend, counted := h.counted, i_range := h.i_range, i_pend := h.i_pend,
    busy_ctx := by decide, busy_apart := h.busy_apart, busy_room := h.busy_room, busy_open := h.busy_open,
    addr_width := h.addr_width, mem_wf := h.mem_wf, mem_space := h.mem_space, torn_space := h.torn_space }

/-- A look at a digest that is done, and one at a digest that runs. -/
theorem witness_ResetStateIsAsDocumented :
    (let s := { unobserved with host := [.look], turns := [.host] }
     s.host = .look :: [] ∧ s.turns = .host :: [] ∧ s.eng.status = .done) ∧
    (let s := { running .chain with host := [.look], turns := [.host] }
     s.host = .look :: [] ∧ s.turns = .host :: [] ∧ s.eng.status ≠ .done) := by decide

/-- Program 5: reset with an answer awaited; the bytes next to the tag buffer are not of it. -/
theorem witness_ResetInputRestoresTheEngine :
    let s := { waiting with turns := [.rst] }
    s.turns = .rst :: [] ∧ s.eng.status = .busy ∧
    ¬ (s.eng.tagBase.toNat ≤ 0x1fff ∧ 0x1fff < s.eng.tagBase.toNat + 16) ∧
    ¬ (s.eng.tagBase.toNat ≤ 0x2010 ∧ 0x2010 < s.eng.tagBase.toNat + 16) := by decide

/-- A reset during a digest leaves each of its sixteen tag bytes another free value (70_reset_and_hazards.md R243), which a
store ends. -/
theorem test_reset_tears_the_tag :
    (let s := resetPulse (running .chain)
     [0x1fff, 0x2000, 0x200f, 0x2010].map (fun a => s.torn.lookup a) = [none, some 13, some 28, none] ∧ s.tagOpen = [] ∧
     (putBytes 0x200f [7] s).torn.lookup 0x200f = none ∧ (putBytes 0x200f [7] s).torn.lookup 0x200e = some 27) := by decide

theorem witness_AHeldDigestMeetsTheResetState :
    let s := { running .chain with host := [.wr 0 0x00100002], turns := [.rst, .host] }
    (s.eng.status = .busy ∧ s.host = .wr 0 0x00100002 :: [] ∧ s.turns = .rst :: .host :: []) ∧
    decode (.command 0x00100002) = .ok (.digest 16) := ⟨by decide, rfl⟩

theorem witness_AnEngineStepRunsTheDecodedPhase :
    let s := { running .chain with turns := [.engine] }
    s.turns = .engine :: [] ∧ engineCan s = true ∧ decode (.phase (phaseCode s.eng.phase)) = .ok .uChain :=
  ⟨by decide, by decide, rfl⟩

/-- A command that is accepted, and a `WAIT` that reads `BUSY`. -/
theorem witness_AHostStepRunsTheDecodedTransaction :
    (let s := { ready with host := [.wr 0 0x00280002], turns := [.host] }
     s.turns = .host :: [] ∧ s.host = .wr 0 0x00280002 :: [] ∧ isHeld s.eng (.wr 0 0x00280002) = false ∧
     hostCode (.wr 0 0x00280002) = some (.port 0b1000 0x00280002) ∧
     decode (.port 0b1000 0x00280002) = .ok (.wr 0 0x00280002)) ∧
    (let s := { running .chain with host := [.wait], turns := [.host] }
     isHeld s.eng .wait = false ∧ hostCode .wait = some (.port 0b0001 0) ∧ decode (.port 0b0001 0) = .ok (.rd 1)) :=
  ⟨⟨by decide, by decide, by decide, rfl, rfl⟩, by decide, rfl, rfl⟩

theorem witness_AnIdleEngineWaitsForACommand :
    State.reset.eng.phase = .idle ∧ State.reset.turns = [] ∧ State.reset.host = [] ∧ State.reset.oracle = [] ∧
    State.reset.encReq = none ∧ State.reset.platActs = [] := by decide

theorem witness_EveryStepKeepsTheInvariant :
    (running .last).Inv ∧ (nextOf (step (running .last))).isSome = true ∧ waiting.Inv ∧
    (nextOf (step waiting)).isSome = true := ⟨inv_running _ (by decide), by decide, inv_waiting, by decide⟩

/-- After `P_COUNT`, in `P_CHAIN`, and with a transaction in flight. -/
theorem witness_TheDocumentedInvariantsHold :
    (running .last).Inv ∧ (running .chain).Inv ∧ waiting.Inv :=
  ⟨inv_running _ (by decide), inv_running _ (by decide), inv_waiting⟩

/-- `ready` is idle and meets the invariant. -/
theorem inv_ready : ready.Inv where
  busy_iff := by decide
  err_iff := by decide
  pend_phase := by decide
  pend_dst := by decide
  pend_request := by intro hp; exact absurd hp Bool.false_ne_true
  pend_open := by decide
  rsp_pend := by decide
  counted := by intro hp; exact absurd hp Bool.false_ne_true
  i_range := by decide
  i_pend := by decide
  busy_ctx := by decide
  busy_apart := by decide
  busy_room := by decide
  busy_open := by decide
  addr_width := by decide
  mem_wf := by decide
  mem_space := by decide
  torn_space := by decide

/-- A change of `STATE` of each kind: to `DONE`, to `IDLE` by reset, and to `BUSY`, to `ERROR` by a command. -/
theorem witness_StateChangesOnlyAsTabled :
    ((running .write).Inv ∧ (nextOf (step (running .write))).map (·.eng.status) = some .done) ∧
    (nextOf (step { running .chain with turns := [.rst] })).map (·.eng.status) = some .idle ∧
    (ready.Inv ∧ (nextOf (step { ready with host := [.wr 0 0x00280002] })).map (·.eng.status) = some .busy ∧
      (nextOf (step { ready with host := [.wr 0 0] })).map (·.eng.status) = some .error) :=
  ⟨⟨inv_running _ (by decide), by decide⟩, by decide, inv_ready, by decide, by decide⟩

theorem witness_ARunningDigestKeepsItsOperands :
    ((running .init).Inv ∧ (running .init).eng.status = .busy ∧ (nextOf (step (running .init))).isSome = true) ∧
    (nextOf (step { running .init with host := [.wr 2 0], turns := [.host] })).map (·.eng.msgBase) = some 0x1000 :=
  ⟨⟨inv_running _ (by decide), by decide, by decide⟩, by decide⟩

/-- The tag write, a host store next to the tag buffer while the digest runs, and a reset. -/
theorem witness_MemoryChangesOnlyByTagWriteOrHostStore :
    (let s := running .write
     s.Inv ∧ (nextOf (step (engOf s (fun e => { e with x := 1 })))).map (·.byteAt 0x200f) = some 1 ∧
     s.byteAt 0x200f ≠ 1) ∧
    (let s := { running .chain with host := [.store 0x2010 7], turns := [.host] }
     (nextOf (step s)).map (·.byteAt 0x2010) = some 7 ∧ s.byteAt 0x2010 ≠ 7) ∧
    (let s := { running .chain with turns := [.rst] }
     (nextOf (step s)).map (·.torn.lookup 0x200f) = some (some 28) ∧ s.torn.lookup 0x200f = none) :=
  ⟨⟨inv_running _ (by decide), by decide, by decide⟩, by decide, by decide⟩

/-- The last message byte; the last tag byte while the digest runs, and after it; the bytes next to the two buffers. -/
theorem witness_StoresAgainstTheHostsDutyAreRefused :
    (let s := { running .chain with host := [.store 0x1027 7], turns := [.host] }
     s.eng.status = .busy ∧ (0x1027 : Word).toNat < 2 ^ s.plat.addrW ∧ s.host = .store 0x1027 7 :: [] ∧
     s.turns = .host :: [] ∧ isMessageByte s.eng 0x1027 = true) ∧
    (let s := { running .chain with host := [.store 0x200f 7], turns := [.host] }
     s.host = .store 0x200f 7 :: [] ∧ isMessageByte s.eng 0x200f = false ∧ isTagByte s.eng 0x200f = true) ∧
    (let s := { unobserved with host := [.store 0x200f 7], turns := [.host] }
     s.eng.status ≠ .busy ∧ (0x200f : Word).toNat ∈ s.tagOpen) ∧
    (let s := { running .chain with host := [.store 0x1028 7], turns := [.host] }
     isMessageByte s.eng 0x1028 = false ∧ isTagByte s.eng 0x1028 = false ∧ (0x1028 : Word).toNat ∉ s.tagOpen ∧
     isMessageByte s.eng 0x1fff = false ∧ isTagByte s.eng 0x1fff = false ∧ (0x1fff : Word).toNat ∉ s.tagOpen ∧
     s.mem.wf) := by decide

/-- Before `DONE` is read the tag bytes are open; `0x2000` and `0x200f` are the ends of the tag buffer. -/
theorem witness_TheTagIsVisibleOnceDoneIsRead :
    let s := unobserved
    s.eng.status = .done ∧ isTagByte s.eng 0x2000 = true ∧ isTagByte s.eng 0x200f = true ∧
    (0x200f : Word).toNat < 2 ^ s.plat.addrW ∧ 0x200f ∈ s.tagOpen := by decide

/-- Program 2 just before its step 15. -/
def finished : State := engOf (running .write) (fun e => { e with x := 0xdfa66747de9ae63030ca32611497c827 })

theorem inv_finished : finished.Inv :=
  have h := inv_running .write (by decide)
  ⟨h.busy_iff, h.err_iff, h.pend_phase, h.pend_dst, h.pend_request, h.pend_open, h.rsp_pend, h.counted, h.i_range,
    h.i_pend, h.busy_ctx, h.busy_apart, h.busy_room, h.busy_open, h.addr_width, h.mem_wf, h.mem_space, h.torn_space⟩

/-- Section 1, V3: the tag is `CMAC` of the message under the cipher of handle 1. -/
theorem test_cmac_of_v3 : cmac aes.encrypt finished.message 40 = 0xdfa66747de9ae63030ca32611497c827 := by decide

theorem follows_finished : finished.Follows := by
  intro c hc
  obtain rfl : aes = c := Option.some.inj ((show finished.plat.adapter finished.eng.ctxCap = some aes by decide).symm.trans hc)
  exact {
    answer := by intro r hr; cases hr
    zero := by decide, l := by decide, k1 := by decide, keys := by decide, last := by decide, chain := by decide,
    chainSent := by decide, final := by decide, finalSent := by decide
    tag := fun _ => test_cmac_of_v3.symm }

theorem witness_EveryStepFollowsCmac :
    finished.Inv ∧ finished.Conforming ∧ finished.Follows ∧ (nextOf (step finished)).isSome = true :=
  ⟨inv_finished, ⟨rfl, rfl⟩, follows_finished, by decide⟩

theorem witness_AFinishedDigestWroteCmac :
    finished.Inv ∧ finished.Follows ∧ finished.plat.adapter finished.eng.ctxCap = some aes ∧
    finished.eng.status = .busy ∧ (nextOf (step finished)).map (·.eng.status) = some .done :=
  ⟨inv_finished, follows_finished, by decide, by decide, by decide⟩

/-- Program 2 after its step 0. -/
theorem witness_AnAcceptedDigestEndsWithItsTag :
    (running .subkeyL).Ready ∧ (running .subkeyL).plat.adapter (running .subkeyL).eng.ctxCap = some aes :=
  ⟨⟨inv_running _ (by decide), by decide, by decide, by decide, rfl, rfl⟩, by decide⟩

theorem witness_AnAcceptedDigestMakesItsRequestsInOrder :
    (running .subkeyL).Ready ∧ (running .subkeyL).plat.adapter (running .subkeyL).eng.ctxCap = some aes :=
  witness_AnAcceptedDigestEndsWithItsTag

/-- The same message with another tag buffer. -/
theorem witness_EqualMessagesGetEqualTags :
    ∃ s s' : State, s.Ready ∧ s'.Ready ∧ s.plat.adapter s.eng.ctxCap = some aes ∧
      s'.plat.adapter s'.eng.ctxCap = some aes ∧ s'.eng.len = s.eng.len ∧ s'.eng.tagBase ≠ s.eng.tagBase ∧
      ∀ k, k < s.eng.len.toNat → s'.message k = s.message k := by
  obtain ⟨h, ha⟩ := witness_AnAcceptedDigestEndsWithItsTag
  refine ⟨_, { engOf (running .subkeyL) (fun e => { e with tagBase := 0x1028 }) with tagOpen := openTag 0x1028 [] },
    h, ?_, ha, ha, rfl, by decide, fun _ _ => rfl⟩
  exact ⟨⟨h.inv.busy_iff, h.inv.err_iff, h.inv.pend_phase, h.inv.pend_dst, h.inv.pend_request, h.inv.pend_open,
    h.inv.rsp_pend, h.inv.counted, h.inv.i_range, h.inv.i_pend, h.inv.busy_ctx, fun _ => by decide, fun _ => by decide,
    fun _ => by decide, by decide, h.inv.mem_wf, h.inv.mem_space, h.inv.torn_space⟩, h.start, h.readable, by decide, rfl,
    rfl⟩

end Sys2Proof.Tests
end

/-! Buffers as numbers (00_scope.md R11, 42_shift_and_xor.md R136): what `bufNat`, `blockBytes`, `ofBytes` and `shl1`
are in arithmetic, and that a block and its sixteen bytes are one thing. -/

namespace Sys2Proof.Machine

/-! ### A buffer as a big-endian number -/

theorem bufNat_lt (A : List Byte) : bufNat A < 2 ^ (8 * A.length) := by
  induction A with
  | nil => simp [bufNat]
  | cons b rest ih =>
    rw [bufNat, List.length_cons, Nat.mul_succ 8, pow_add]
    have hb : b.toNat + 1 ≤ 2 ^ 8 := b.isLt
    nlinarith

/-- The first byte of a buffer and the number of what follows are the quotient and the remainder of its number. -/
theorem bufNat_cons_div_mod (b : Byte) (rest : List Byte) :
    bufNat (b :: rest) / 2 ^ (8 * rest.length) = b.toNat ∧
    bufNat (b :: rest) % 2 ^ (8 * rest.length) = bufNat rest := by
  rw [Nat.div_mod_unique (by positivity)]
  exact ⟨by rw [bufNat]; ring, bufNat_lt rest⟩

/-- Buffers of one length are told apart by their numbers. -/
theorem eq_of_bufNat_eq {A B : List Byte} (hlen : A.length = B.length) (h : bufNat A = bufNat B) : A = B := by
  induction A generalizing B with
  | nil => exact (List.length_eq_zero_iff.mp hlen.symm).symm
  | cons a A ih =>
    obtain _ | ⟨b, B⟩ := B
    · cases hlen
    have hlen : A.length = B.length := Nat.succ.inj hlen
    obtain ⟨ha, hA⟩ := bufNat_cons_div_mod a A
    obtain ⟨hb, hB⟩ := bufNat_cons_div_mod b B
    rw [h, hlen] at ha hA
    rw [BitVec.eq_of_toNat_eq (ha.symm.trans hb), ih hlen (hA.symm.trans hB)]

/-! ### A block and its bytes -/

theorem toNat_blockByte (b : Block) (i : Nat) : (blockByte b i).toNat = b.toNat / 2 ^ (120 - 8 * i) % 2 ^ 8 := by
  rw [blockByte, BitVec.extractLsb'_toNat, Nat.shiftRight_eq_div_pow]

/-- The last `n` bytes of a block are its number modulo `2 ^ (8 * n)`. -/
theorem bufNat_lastBytes (b : Block) {n : Nat} (hn : n ≤ 16) :
    bufNat ((List.range n).map fun k => blockByte b (16 - n + k)) = b.toNat % 2 ^ (8 * n) := by
  induction n with
  | zero => simp [bufNat, Nat.mod_one]
  | succ n ih =>
    have htail : (List.map ((fun k => blockByte b (16 - (n + 1) + k)) ∘ Nat.succ) (List.range n)) =
        (List.range n).map fun k => blockByte b (16 - n + k) :=
      List.map_congr_left fun k _ => congrArg (blockByte b) (by omega)
    have hshift : 120 - 8 * (16 - (n + 1) + 0) = 8 * n := by omega
    rw [List.range_succ_eq_map, List.map_cons, List.map_map, htail, bufNat, ih (by omega), toNat_blockByte, hshift,
      List.length_map, List.length_range, Nat.mul_succ 8, pow_add, Nat.mod_mul]
    ring

@[simp] theorem bufNat_blockBytes (b : Block) : bufNat (blockBytes b) = b.toNat := by
  have h := bufNat_lastBytes b (le_refl 16)
  rw [Nat.mod_eq_of_lt b.isLt] at h
  simpa [blockBytes] using h

@[simp] theorem ofBytes_blockBytes (b : Block) : ofBytes (blockBytes b) = b := by
  rw [ofBytes, bufNat_blockBytes, BitVec.ofNat_toNat, BitVec.setWidth_eq]

theorem toNat_ofBytes {A : List Byte} (h : A.length = 16) : (ofBytes A).toNat = bufNat A := by
  have hlt := bufNat_lt A
  rw [h] at hlt
  rw [ofBytes, BitVec.toNat_ofNat, Nat.mod_eq_of_lt hlt]

theorem blockBytes_ofBytes {A : List Byte} (h : A.length = 16) : blockBytes (ofBytes A) = A :=
  eq_of_bufNat_eq (by rw [length_blockBytes, h]) (by rw [bufNat_blockBytes, toNat_ofBytes h])

/-! ### The shift of a buffer -/

@[simp] theorem length_shl1 (A : List Byte) : (shl1 A).length = A.length := by
  induction A with
  | nil => rfl
  | cons b rest ih => rw [shl1, List.length_cons, ih, List.length_cons]

theorem toNat_carryIn_cons (b : Byte) (rest : List Byte) : (carryIn (b :: rest)).toNat = b.toNat / 2 ^ 7 := by
  rw [carryIn]
  revert b
  decide

/-- The carry into the byte before a buffer is what doubling the buffer's number pushes out of its width. -/
theorem toNat_carryIn (A : List Byte) : (carryIn A).toNat = bufNat A * 2 / 2 ^ (8 * A.length) := by
  cases A with
  | nil => rfl
  | cons b rest =>
    have hwidth : 2 ^ (8 * (b :: rest).length) = 2 ^ (8 * rest.length) * 2 ^ 7 * 2 := by
      rw [List.length_cons]; ring
    rw [toNat_carryIn_cons, ← (bufNat_cons_div_mod b rest).1, Nat.div_div_eq_div_mul, hwidth,
      Nat.mul_div_mul_right _ _ two_pos]

/-- A shifted byte has a free bit 0, so setting it to the carry is adding the carry. -/
theorem toNat_shiftIn (b : Byte) (rest : List Byte) :
    (b <<< 1 ||| carryIn rest).toNat = (b.toNat * 2 + (carryIn rest).toNat) % 2 ^ 8 := by
  have hbit : carryIn rest = 0 ∨ carryIn rest = 1 := by
    cases rest with
    | nil => exact .inl rfl
    | cons c _ => rw [carryIn]; split <;> simp
  rcases hbit with h | h <;> rw [h] <;> revert b <;> decide

/-- `SHL1` doubles the number of the buffer and loses what leaves its width (42_shift_and_xor.md R136). -/
theorem bufNat_shl1 (A : List Byte) : bufNat (shl1 A) = bufNat A * 2 % 2 ^ (8 * A.length) := by
  induction A with
  | nil => rfl
  | cons b rest ih =>
    have hsplit : bufNat (b :: rest) * 2 = bufNat rest * 2 + 2 ^ (8 * rest.length) * (b.toNat * 2) := by
      rw [bufNat]; ring
    have hpos : 0 < 2 ^ (8 * rest.length) := by positivity
    rw [shl1, bufNat, ih, length_shl1, toNat_shiftIn, toNat_carryIn, List.length_cons, Nat.mul_succ 8, pow_add,
      Nat.mod_mul, hsplit, Nat.add_mul_mod_self_left, Nat.add_mul_div_left _ _ hpos, Nat.add_comm (b.toNat * 2)]
    ring

/-- On a block `SHL1` is the shift of the 128 bits by one place. -/
theorem blockShl1_eq (b : Block) : blockShl1 b = b <<< 1 := by
  apply BitVec.eq_of_toNat_eq
  rw [blockShl1, toNat_ofBytes (by simp), bufNat_shl1, bufNat_blockBytes, length_blockBytes, BitVec.toNat_shiftLeft,
    Nat.shiftLeft_eq, pow_one]

/-- Settles O9, both sides compared as big-endian numbers. -/
theorem blocksAndSixteenByteBuffersAgree : Obligations.BlocksAndSixteenByteBuffersAgree :=
  ⟨fun b => ⟨ofBytes_blockBytes b, bufNat_blockBytes b⟩, fun _ => blockBytes_ofBytes, blockShl1_eq⟩

end Sys2Proof.Machine

/-! The state (10_state.md): which registers each instruction writes, what the reset state is, and the invariant of the
whole machine under every step. -/

namespace Sys2Proof.Machine

/-! ### What `COUNT` gives -/

theorem count_blocks_pos (len : Nat) : 1 ≤ (count len).1 := by
  unfold count
  split_ifs <;> simp
  omega

theorem count_blocks_le {len : Nat} (h : len < 2 ^ 16) : (count len).1 ≤ 4096 := by
  unfold count
  split_ifs <;> simp <;> omega

theorem count_rem_of_complete {len : Nat} (h : (count len).2.1 = true) : (count len).2.2 = 16 := by
  revert h
  unfold count
  split_ifs <;> simp

theorem count_rem_of_partial {len : Nat} (h : (count len).2.1 = false) : (count len).2.2 ≤ 15 := by
  revert h
  unfold count
  split_ifs <;> simp
  omega

theorem count_rem_le (len : Nat) : (count len).2.2 ≤ 16 := by
  cases h : (count len).2.1
  · exact (count_rem_of_partial h).trans (by decide)
  · exact (count_rem_of_complete h).le

theorem count_rem_eq_zero {len : Nat} (h : (count len).2.2 = 0) : len = 0 := by
  revert h
  unfold count
  split_ifs <;> simp_all

/-- The registers `U_COUNT` writes are wide enough for what `COUNT` gives. -/
theorem counted_of_count (e : Engine) (p : Phase) :
    Engine.counted { e with
      n := BitVec.ofNat 13 (count e.len.toNat).1, flag := (count e.len.toNat).2.1,
      r := BitVec.ofNat 5 (count e.len.toNat).2.2, phase := p } := by
  have hn := count_blocks_le e.len.isLt
  have hr := count_rem_le e.len.toNat
  refine ⟨?_, rfl, ?_⟩ <;> simp only [BitVec.toNat_ofNat] <;> omega

/-! ### The registers each instruction writes -/

/-- The registers no micro-operation writes: context, addresses, latched operands and `ERR` (10_state.md R20). -/
def Engine.operands (e : Engine) : Bool × Handle × Word × Word × Word × Word × BitVec 16 × ErrCode :=
  (e.ctxValid, e.ctxCap, e.msgAddr, e.tagAddr, e.msgBase, e.tagBase, e.len, e.err)

variable {s t : State} {e : Engine} {i : Instr}

/-- A micro-operation keeps the operands. -/
theorem microOp_operands {p : Phase} (hi : phaseInstr p = some i) (h : exec i s = .next t) :
    t.eng.operands = s.eng.operands := by
  cases p <;> cases hi
  case subkeyL => rcases execUSubkeyL_next h with ⟨_, rfl⟩ | ⟨_, r, _, rfl⟩ <;> simp [Engine.operands]
  case subkeyK1 => cases h; rfl
  case subkeyK2 => cases h; rfl
  case count => cases h; rfl
  case last => obtain ⟨_, _, m, _, rfl⟩ := execULast_next h; rfl
  case init => cases h; rfl
  case chain =>
    rcases execUChain_next h with ⟨_, r, _, rfl⟩ | ⟨_, _, rfl⟩ | ⟨_, _, _, rfl⟩ <;> simp [Engine.operands]
  case final => rcases execUFinal_next h with ⟨_, rfl⟩ | ⟨_, r, _, rfl⟩ <;> simp [Engine.operands]
  case write => obtain ⟨_, rfl⟩ := execUWrite_next h; rfl

/-- Settles O35, one instruction at a time. -/
theorem registersAreWrittenOnlyByTheirWriters : Obligations.RegistersAreWrittenOnlyByTheirWriters := by
  intro i s t h hdst
  cases i with
  | setup cap => rcases execSetup_next h with ⟨_, rfl⟩ | ⟨_, rfl⟩ <;> simp
  | digest len =>
    rcases execDigest_next h with ⟨_, rfl⟩ | ⟨_, ha⟩
    · simp
    · rcases acceptDigest_next ha with ⟨c, _, rfl⟩ | ⟨_, _, _, _, _, rfl⟩ <;> simp
  | wr idx data =>
    rcases execWr_next h with ⟨rfl, hc⟩ | ⟨rfl, rfl⟩ | ⟨rfl, rfl⟩ | ⟨_, rfl⟩
    · rcases hc with ⟨_, rfl⟩ | ⟨_, cap, rfl⟩ | ⟨_, c, _, rfl⟩ | ⟨_, len, _, _, _, _, rfl⟩ <;> simp
    · simp
    · simp
    · simp
  | rd idx => obtain ⟨opened, rfl, _⟩ := execRd_next h; simp
  | uSubkeyL =>
    rcases execUSubkeyL_next h with ⟨_, rfl⟩ | ⟨hp, r, _, rfl⟩
    · simp
    · simp [setEncReg_l_of _ _ ((hdst hp).1 rfl)]
  | uSubkeyK1 => cases h; simp
  | uSubkeyK2 => cases h; simp
  | uCount => cases h; simp
  | uLast => obtain ⟨_, _, m, _, rfl⟩ := execULast_next h; simp
  | uInit => cases h; simp
  | uChain =>
    rcases execUChain_next h with ⟨hp, r, _, rfl⟩ | ⟨_, _, rfl⟩ | ⟨_, _, _, rfl⟩
    · simp [setEncReg_x_of _ _ ((hdst hp).2 (.inl rfl))]
    · simp
    · simp
  | uFinal =>
    rcases execUFinal_next h with ⟨_, rfl⟩ | ⟨hp, r, _, rfl⟩
    · simp
    · simp [setEncReg_x_of _ _ ((hdst hp).2 (.inr rfl))]
  | uWrite => obtain ⟨_, rfl⟩ := execUWrite_next h; simp

/-! ### The invariant: what it says of an engine at rest and of one that runs -/

theorem State.Inv.phase_idle (h : s.Inv) (hb : isBusy s.eng = false) : s.eng.phase = .idle := by
  by_contra hp
  simp [isBusy, h.busy_iff.mpr hp] at hb

theorem State.Inv.encRsp_none (h : s.Inv) (hp : s.eng.encPend = false) : s.encRsp = none := by
  by_contra hr
  simp [h.rsp_pend hr] at hp

theorem State.Inv.encPend_false (h : s.Inv) (hp : s.eng.phase.calls = false) : s.eng.encPend = false := by
  by_contra hpend
  simp [h.pend_phase (by simpa using hpend)] at hp

theorem State.Inv.err_none (h : s.Inv) (hs : s.eng.status ≠ .error) : s.eng.err = .none := by
  by_contra he
  exact hs (h.err_iff.mp he)

theorem State.Inv.busy_of_pend (h : s.Inv) (hp : s.eng.encPend = true) : s.eng.status = .busy := by
  refine h.busy_iff.mpr fun hidle => ?_
  have hcalls := h.pend_phase hp
  rw [hidle] at hcalls
  cases hcalls

/-! ### Building the invariant of a next state -/

/-- An engine at rest with nothing in flight: only the addresses, `ERR` and memory are left to say. -/
theorem State.Inv.atRest (status : s.eng.status ≠ .busy) (phase : s.eng.phase = .idle)
    (err : s.eng.err ≠ .none ↔ s.eng.status = .error) (pend : s.eng.encPend = false) (rsp : s.encRsp = none)
    (addr : s.eng.msgAddr.toNat < 2 ^ s.plat.addrW ∧ s.eng.tagAddr.toNat < 2 ^ s.plat.addrW ∧
      s.eng.msgBase.toNat < 2 ^ s.plat.addrW ∧ s.eng.tagBase.toNat < 2 ^ s.plat.addrW)
    (mem : s.mem.wf) (space : ∀ c ∈ s.mem, c.1 < 2 ^ s.plat.addrW) (torn : ∀ c ∈ s.torn, c.1 < 2 ^ s.plat.addrW) :
    s.Inv where
  busy_iff := by simp [status, phase]
  err_iff := err
  pend_phase := by simp [pend]
  pend_dst := by simp [pend]
  pend_request := by simp [pend]
  pend_open := by simp [pend]
  rsp_pend := by simp [rsp]
  counted := by simp [phase, Phase.afterCount]
  i_range := by simp [phase]
  i_pend := by simp [phase]
  busy_ctx := fun hb => absurd hb status
  busy_apart := fun hb => absurd hb status
  busy_room := fun hb => absurd hb status
  busy_open := fun hb => absurd hb status
  addr_width := addr
  mem_wf := mem
  mem_space := space
  torn_space := torn

/-- A running engine moves to a phase with nothing in flight and keeps its operands: what depends on the phase is left. -/
theorem State.Inv.advance {q : Option Request} {r : Option Block} (h : s.Inv) (hp : s.eng.phase ≠ .idle)
    (ops : e.operands = s.eng.operands) (status : e.status = s.eng.status) (phase : e.phase ≠ .idle)
    (pend : e.encPend = false) (rsp : r = none) (counted : e.phase.afterCount = true → e.counted)
    (range : e.phase = .chain → e.i.toNat + 1 ≤ e.n.toNat) : State.Inv { s with eng := e, encReq := q, encRsp := r } := by
  have hb := h.busy_iff.mpr hp
  simp only [Engine.operands, Prod.mk.injEq] at ops
  obtain ⟨hv, hc, hma, hta, hmb, htb, hl, he⟩ := ops
  exact { h with
    busy_iff := by simp [status, hb, phase]
    err_iff := by simpa only [he, status] using h.err_iff
    pend_phase := by simp [pend]
    pend_dst := by simp [pend]
    pend_request := by simp [pend]
    pend_open := by simp [pend]
    rsp_pend := by simp [rsp]
    counted := counted
    i_range := range
    i_pend := by simp [pend]
    busy_ctx := by simpa only [hv, hc, status] using h.busy_ctx
    busy_apart := by simpa only [hmb, hl, htb, status] using h.busy_apart
    busy_room := by simpa only [hmb, hl, htb, status] using h.busy_room
    busy_open := by simpa only [htb, status] using h.busy_open
    addr_width := by simpa only [hma, hta, hmb, htb] using h.addr_width }

/-- A block is sent (40_cipher_adapter.md R114): the register is prepared, and the request is that register. -/
theorem State.Inv.after_issue {d : EncDst} (h : s.Inv) (calls : s.eng.phase.calls = true)
    (dst : d = .l ↔ s.eng.phase = .subkeyL) (range : s.eng.phase = .chain → s.eng.i.toNat + 1 < s.eng.n.toNat) :
    (issue d s).Inv :=
  { h with
    pend_phase := fun _ => calls
    pend_dst := fun _ => dst
    pend_request := fun _ _ hq => (Option.some.inj hq).symm
    pend_open := fun _ _ => Option.some_ne_none _
    rsp_pend := fun _ => rfl
    i_pend := fun hc _ => range hc }

/-- Bytes written inside the address space leave memory as the invariant wants it. -/
theorem State.Inv.after_putBytes {a : Nat} {bs : List Byte} (h : s.Inv) (space : a + bs.length ≤ 2 ^ s.plat.addrW) :
    (putBytes a bs s).Inv :=
  { h with
    mem_wf := wf_putBytes h.mem_wf
    mem_space := fun c hc => by
      rcases mem_putBytes_mem hc with hc | ⟨_, hc⟩
      · exact h.mem_space c hc
      · exact lt_of_lt_of_le hc space
    torn_space := fun c hc => h.torn_space c (mem_putBytes_torn hc) }

/-! ### Each agent's move keeps it -/

/-- The engine's move. -/
theorem State.Inv.after_microOp (h : s.Inv) (hi : phaseInstr s.eng.phase = some i) (he : exec i s = .next t) :
    t.Inv := by
  have hp : s.eng.phase ≠ .idle := fun hidle => by simp [hidle, phaseInstr] at hi
  have ops := microOp_operands hi he
  have hquiet (hc : s.eng.phase.calls = false) : s.eng.encPend = false ∧ s.encRsp = none :=
    ⟨h.encPend_false hc, h.encRsp_none (h.encPend_false hc)⟩
  have hcounted (hc : s.eng.phase.afterCount = true) : s.eng.counted := h.counted hc
  cases hphase : s.eng.phase <;> rw [hphase] at hi hquiet hcounted <;> cases hi
  case subkeyL =>
    rcases execUSubkeyL_next he with ⟨pend, rfl⟩ | ⟨_, r, _, rfl⟩
    · exact State.Inv.after_issue { h with pend_request := by simp [pend] } (by simp [hphase, Phase.calls])
        (by simp [hphase]) (by simp [hphase])
    · exact h.advance hp ops (by simp) nofun rfl rfl nofun nofun
  case subkeyK1 =>
    obtain ⟨pend, rsp⟩ := hquiet rfl
    cases he
    exact h.advance hp ops rfl nofun pend rsp nofun nofun
  case subkeyK2 =>
    obtain ⟨pend, rsp⟩ := hquiet rfl
    cases he
    exact h.advance hp ops rfl nofun pend rsp nofun nofun
  case count =>
    obtain ⟨pend, rsp⟩ := hquiet rfl
    cases he
    exact h.advance hp ops rfl nofun pend rsp (fun _ => counted_of_count s.eng .last) nofun
  case last =>
    obtain ⟨pend, rsp⟩ := hquiet rfl
    obtain ⟨_, _, m, _, rfl⟩ := execULast_next he
    exact h.advance hp ops rfl nofun pend rsp (fun _ => hcounted rfl) nofun
  case init =>
    obtain ⟨pend, rsp⟩ := hquiet rfl
    have hn : 1 ≤ s.eng.n.toNat := (hcounted rfl).1 ▸ count_blocks_pos _
    cases he
    exact h.advance hp ops rfl nofun pend rsp (fun _ => hcounted rfl) (fun _ => by simpa using hn)
  case chain =>
    rcases execUChain_next he with ⟨pend, r, _, rfl⟩ | ⟨pend, _, rfl⟩ | ⟨pend, hlt, _, rfl⟩
    · have hlt := h.i_pend hphase pend
      have hn := s.eng.n.isLt
      refine h.advance hp ops (by simp) (by simpa using hp) rfl rfl (fun _ => ?_) (fun _ => ?_)
      · simpa [Engine.counted] using hcounted rfl
      · simp only [setEncReg_n, BitVec.toNat_add]
        simp
        omega
    · exact h.advance hp ops rfl nofun pend (h.encRsp_none pend) (fun _ => hcounted rfl) nofun
    · exact State.Inv.after_issue { h with pend_request := by simp [pend] } (by simp [hphase, Phase.calls])
        (by simp [hphase]) (fun _ => hlt)
  case final =>
    rcases execUFinal_next he with ⟨pend, rfl⟩ | ⟨_, r, _, rfl⟩
    · exact State.Inv.after_issue { h with pend_request := by simp [pend] } (by simp [hphase, Phase.calls])
        (by simp [hphase]) (by simp [hphase])
    · refine h.advance hp ops (by simp) nofun rfl rfl (fun _ => ?_) nofun
      simpa [Engine.counted] using hcounted rfl
  case write =>
    obtain ⟨pend, rsp⟩ := hquiet rfl
    have herr := h.err_none (by simp [h.busy_iff.mpr hp])
    obtain ⟨hw, rfl⟩ := execUWrite_next he
    have hrest : State.Inv { s with eng := { s.eng with status := .done, phase := .idle } } :=
      .atRest nofun rfl (by simp [herr]) pend rsp h.addr_width h.mem_wf h.mem_space h.torn_space
    exact hrest.after_putBytes (a := eaTag s.eng) (bs := blockBytes s.eng.x)
      (by simpa using admitW_bound hw (by decide))

/-- A command, accepted or held. -/
theorem State.Inv.after_command (h : s.Inv) (hc : CommandEffect s t) : t.Inv := by
  have hrest (hb : isBusy s.eng = false) : s.eng.encPend = false :=
    h.encPend_false (by rw [h.phase_idle hb]; rfl)
  rcases hc with ⟨_, rfl⟩ | ⟨hb, cap, rfl⟩ | ⟨hb, c, hc, rfl⟩ |
    ⟨hb, len, ctx, readable, writable, apart, rfl⟩
  · exact h
  · exact .atRest nofun (h.phase_idle hb) (by simp) (hrest hb) (h.encRsp_none (hrest hb)) h.addr_width h.mem_wf
      h.mem_space h.torn_space
  · exact .atRest nofun (h.phase_idle hb) (by simp [hc]) (hrest hb) (h.encRsp_none (hrest hb)) h.addr_width h.mem_wf
      h.mem_space h.torn_space
  · exact { h with
      busy_iff := by simp
      err_iff := by simp
      pend_phase := fun _ => rfl
      pend_dst := by simp [hrest hb]
      counted := nofun
      i_range := nofun
      i_pend := nofun
      busy_ctx := fun _ => ctx
      busy_apart := fun _ => apart
      busy_room := fun _ => ⟨admitW_bound writable (by decide),
        fun hlen => admitR_bound readable (by simpa [BitVec.toNat_eq] using hlen)⟩
      busy_open := fun _ k hk => mem_openTag.mpr (.inr (by simp; omega))
      addr_width := ⟨h.addr_width.1, h.addr_width.2.1, h.addr_width.1, h.addr_width.2.1⟩ }

/-- The reset input: the two unspecified addresses are cut to the address width, and the torn bytes are the tag buffer of a
digest that ran. -/
theorem State.Inv.after_reset (h : s.Inv) : (resetPulse s).Inv := by
  have hpos : 0 < 2 ^ s.plat.addrW := by positivity
  refine .atRest nofun rfl (by simp) rfl rfl ⟨hpos, hpos, truncAddr_lt _ _, truncAddr_lt _ _⟩ h.mem_wf h.mem_space ?_
  intro c hc
  rw [resetPulse_torn] at hc
  split at hc
  · have hroom := (h.busy_room (by simpa [isBusy] using ‹isBusy s.eng = true›)).1
    rcases mem_tear hc with hc | hc
    · exact lt_of_lt_of_le hc.2 hroom
    · exact h.torn_space c hc
  · exact h.torn_space c hc

/-- The adapter's move: an awaited answer stands on the port, any other is dropped, and the request is answered. -/
theorem State.Inv.after_answer {r : Block} (h : s.Inv) : (presentAnswer r s).Inv :=
  { h with
    pend_request := nofun
    pend_open := fun (pend : s.eng.encPend = true) => by simp [pend]
    rsp_pend := fun hr => by
      by_contra (pend : ¬ s.eng.encPend = true)
      exact hr (by simpa [pend] using h.encRsp_none (by simpa using pend)) }

/-- A host action. -/
theorem State.Inv.after_hostEffect {a : HostAction} (h : s.Inv) (he : HostEffect a s t) : t.Inv := by
  cases he with
  | wr idx d _ hw =>
    rcases execWr_next hw with ⟨_, hc⟩ | ⟨_, rfl⟩ | ⟨_, rfl⟩ | ⟨_, rfl⟩
    · exact h.after_command hc
    · exact { h with addr_width := ⟨truncAddr_lt _ _, h.addr_width.2⟩ }
    · exact { h with addr_width := ⟨h.addr_width.1, truncAddr_lt _ _, h.addr_width.2.2⟩ }
    · exact h
  | rd idx hr =>
    obtain ⟨opened, rfl, rfl | ⟨hdone, rfl⟩⟩ := execRd_next hr
    · exact { h with }
    · exact { h with busy_open := by simp [hdone] }
  | look e =>
    rw [e, observe_eq]
    refine { h with busy_open := fun (hb : s.eng.status = .busy) => ?_ }
    simpa [hb] using h.busy_open hb
  | reset e => exact e ▸ h.after_reset
  | store x b _ space _ _ e => exact e ▸ h.after_putBytes space
  | load b n e => exact e ▸ { h with }

/-- Settles O49: the turn is taken off the list, and each agent's move keeps the invariant. -/
theorem everyStepKeepsTheInvariant : Obligations.EveryStepKeepsTheInvariant := by
  intro s t hinv hstep
  obtain ⟨turns, hmove⟩ := step_next hstep
  have h : State.Inv { s with turns := turns } := { hinv with }
  cases hmove with
  | pass e => exact e ▸ h
  | engine i hi _ he => exact h.after_microOp hi he
  | adapter r _ port e => exact e ▸ State.Inv.after_answer { h with }
  | host a rest _ _ he =>
    have hrun : State.Inv { s with turns := turns, host := hostRest s.eng a rest } := { hinv with }
    exact hrun.after_hostEffect he
  | platform a rest _ e =>
    subst e
    cases a with
    | attach c cipher => exact { h with }
    | remap map => exact { h with }
  | reset e => exact e ▸ h.after_reset

/-- Settles O48: the reset state is at rest with memory empty. -/
theorem resetMeetsTheInvariant : Obligations.ResetMeetsTheInvariant :=
  .atRest nofun rfl (by decide) rfl rfl (by decide) Memory.wf_nil nofun nofun

/-! ### What the invariant says in the words of 10_state.md R39 -/

theorem State.Inv.documented (h : s.Inv) : s.eng.Documented where
  busy_iff := h.busy_iff
  pend_phase := fun pend => by
    have hcalls := h.pend_phase pend
    revert hcalls
    cases s.eng.phase <;> simp [Phase.calls]
  err_iff := h.err_iff
  n_range := fun hc => by
    rw [(h.counted hc).1]
    exact ⟨count_blocks_pos _, count_blocks_le s.eng.len.isLt⟩
  len_eq := fun hc => by
    obtain ⟨hn, -, hr⟩ := h.counted hc
    rw [hn, hr, count_splits]
  r_complete := fun hc hflag => by
    obtain ⟨-, hf, hr⟩ := h.counted hc
    exact hr.trans (count_rem_of_complete (hf.symm.trans hflag))
  r_partial := fun hc hflag => by
    obtain ⟨-, hf, hr⟩ := h.counted hc
    exact hr.trans_le (count_rem_of_partial (hf.symm.trans hflag))
  r_zero := fun hc hzero => count_rem_eq_zero ((h.counted hc).2.2.symm.trans hzero)
  i_range := fun hc => Nat.le_sub_one_of_lt (h.i_range hc)

/-- Settles O50: the invariant says it, and every step keeps the invariant. -/
theorem theDocumentedInvariantsHold : Obligations.TheDocumentedInvariantsHold :=
  fun s h => ⟨h.documented, fun t hstep => (everyStepKeepsTheInvariant s t h hstep).documented⟩

/-! ### What a step can do to an engine that runs -/

/-- While a digest runs a step is a micro-operation, a reset, or changes nothing of the engine but the two address registers,
which the host may write at any time (44_host_commands.md R200). -/
inductive BusyStep (s t : State) : Prop
  | engine (turns : List Agent) (i : Instr) (hi : phaseInstr s.eng.phase = some i) (can : engineCan s = true)
      (h : exec i { s with turns := turns } = .next t)
  | others (a b : Word) (e : t.eng = { s.eng with msgAddr := a, tagAddr := b })
  | reset (p : Platform) (k : Nat) (e : t.eng = resetEngine p k)

theorem BusyStep.of_eng_eq (e : t.eng = s.eng) : BusyStep s t := .others s.eng.msgAddr s.eng.tagAddr e

/-- A command cannot be accepted while a digest runs, so a `WR` writes an address or nothing. -/
theorem busy_execWr {idx : BitVec 3} {d : Word} (hb : isBusy s.eng = true) (h : execWr idx d s = .next t) :
    ∃ a b, t.eng = { s.eng with msgAddr := a, tagAddr := b } := by
  rcases execWr_next h with ⟨_, hc⟩ | ⟨_, rfl⟩ | ⟨_, rfl⟩ | ⟨_, rfl⟩
  · cases hc with
    | held _ e => exact ⟨s.eng.msgAddr, s.eng.tagAddr, by rw [e]⟩
    | setup hn => simp [hb] at hn
    | error hn => simp [hb] at hn
    | digest hn => simp [hb] at hn
  · exact ⟨_, _, rfl⟩
  · exact ⟨_, _, rfl⟩
  · exact ⟨_, _, rfl⟩

theorem busy_step (hb : s.eng.status = .busy) (h : step s = .next t) : BusyStep s t := by
  have hbusy : isBusy s.eng = true := by simp [isBusy, hb]
  obtain ⟨turns, hmove⟩ := step_next h
  cases hmove with
  | pass e => exact .of_eng_eq (e ▸ rfl)
  | engine i hi can h => exact .engine turns i hi can h
  | adapter r _ _ e => exact .of_eng_eq (e ▸ rfl)
  | host a rest _ _ he =>
    cases he with
    | wr idx d _ hw =>
      obtain ⟨a, b, e⟩ := busy_execWr (s := { s with turns := turns, host := hostRest s.eng a rest }) hbusy hw
      exact .others a b e
    | rd idx hr =>
      obtain ⟨opened, rfl, _⟩ := execRd_next hr
      exact .of_eng_eq rfl
    | look e => exact .of_eng_eq (by simp [e])
    | reset e => exact .reset s.plat s.free (e ▸ rfl)
    | store x b _ _ _ _ e => exact .of_eng_eq (by simp [e])
    | load b n e => exact .of_eng_eq (e ▸ rfl)
  | platform a rest _ e => subst e; cases a <;> exact .of_eng_eq rfl
  | reset e => exact .reset s.plat s.free (e ▸ rfl)

/-- Settles O40: the engine itself cannot move without its answer. -/
theorem theEngineIsHeldUntilTheAnswer : Obligations.TheEngineIsHeldUntilTheAnswer := by
  intro s t h pend rsp hstep
  have hb := h.busy_of_pend pend
  cases busy_step hb hstep with
  | engine turns i hi can _ => simp [engineCan, pend, rsp] at can
  | others a b e =>
    rw [e]
    exact .inl ⟨pend, hb, rfl, rfl, rfl⟩
  | reset p k e =>
    rw [e]
    exact .inr ⟨rfl, rfl, rfl⟩

/-- Settles O52: a micro-operation writes none of the operands. -/
theorem aRunningDigestKeepsItsOperands : Obligations.ARunningDigestKeepsItsOperands := by
  intro s t h hb hstep
  have herr := h.err_none (by simp [hb])
  cases busy_step hb hstep with
  | engine turns i hi _ he =>
    have ops := microOp_operands hi he
    simp only [Engine.operands, Prod.mk.injEq] at ops
    obtain ⟨hv, hc, -, -, hm, ht, hl, he⟩ := ops
    exact .inl ⟨hv, hc, hm, ht, hl, he.trans herr⟩
  | others a b e =>
    rw [e]
    exact .inl ⟨rfl, rfl, rfl, rfl, rfl, herr⟩
  | reset p k e =>
    rw [e]
    exact .inr ⟨rfl, rfl⟩

/-! ### The turn of one agent -/

/-- At the turn of an agent that can move, the step is its move. -/
theorem step_of_turn {g : Agent} {turns : List Agent} (ht : s.turns = g :: turns)
    (hc : canMove g { s with turns := turns } = true) : step s = act g { s with turns := turns } := by
  simp only [step, stepOf, ht, takeTurn, hc, if_true]

/-- At the host's turn, its first action is performed unless it is held. -/
theorem step_of_hostTurn {a : HostAction} {rest : List HostAction} {turns : List Agent} (ht : s.turns = .host :: turns)
    (hh : s.host = a :: rest) (held : isHeld s.eng a = false) :
    step s = hostPerform a { s with turns := turns, host := hostRest s.eng a rest } := by
  rw [step_of_turn ht (by simp [canMove, hostCan, hh, held])]
  simp only [act, hostMove, hh]

/-- Settles O45. -/
theorem anEngineStepRunsTheDecodedPhase : Obligations.AnEngineStepRunsTheDecodedPhase := by
  intro s i turns ht hc hi
  have hstep : step s = act .engine { s with turns := turns } := step_of_turn ht hc
  rw [hstep]
  simp only [act, runCode, engineCode, hi]

/-! ### The level outputs -/

/-- The level outputs are those of 10_state.md R34. -/
theorem outputs_iff (e : Engine) : ((outputs e).busy = true ↔ e.status = .busy) ∧
    ((outputs e).cmdReady = true ↔ e.status ≠ .busy) ∧
    ((outputs e).done = true ↔ e.status = .done ∨ e.status = .error) := by
  simp [outputs, isBusy]

/-- A look at the host's turn. -/
theorem step_of_look {rest : List HostAction} {turns : List Agent} (hh : s.host = .look :: rest)
    (ht : s.turns = .host :: turns) :
    step s = .next { s with
      host := rest, turns := turns, hOuts := outputs s.eng
      tagOpen := if s.eng.status = .done then [] else s.tagOpen } := by
  rw [step_of_hostTurn ht hh rfl]
  simp [hostPerform, hostCode, hostRest, observe_eq]

/-- Settles O42. -/
theorem resetStateIsAsDocumented : Obligations.ResetStateIsAsDocumented := by
  refine ⟨rfl, rfl, rfl, rfl, rfl, rfl, rfl, rfl, by decide, by decide, rfl, outputs_iff, ?_⟩
  intro s rest turns hh ht
  exact ⟨_, step_of_look hh ht, rfl, fun h => if_pos h, fun h => if_neg h⟩

end Sys2Proof.Machine

/-! Memory (20_memory.md): what a write makes readable, which ranges are admitted, where the message is read, and who may
change a byte. -/

namespace Sys2Proof.Machine

variable {s t : State} {i : Instr} {x : Nat}

/-! ### Reading back what was written -/

theorem Memory.readBytes_writeBytes {m : Memory} {a : Nat} {bs : List Byte} (h : m.wf) :
    (m.writeBytes a bs).readBytes a bs.length = bs := by
  refine List.ext_getElem (length_readBytes _ _ _) fun k hk hk' => ?_
  simp only [Memory.readBytes, List.getElem_map, List.getElem_range]
  exact Memory.read_writeBytes_inside h hk'

/-- A byte as the agents see it is decided by memory and the list of unspecified bytes. -/
theorem State.byteAt_congr (hmem : t.mem = s.mem) (htorn : t.torn = s.torn) (a : Nat) : t.byteAt a = s.byteAt a := by
  simp only [State.byteAt, hmem, htorn]

theorem byteAt_putBytes_singleton_same {a : Nat} {b : Byte} (h : s.mem.wf) : (putBytes a [b] s).byteAt a = b :=
  byteAt_putBytes_inside (bs := [b]) (k := 0) h Nat.one_pos

theorem byteAt_putBytes_singleton_other {a : Nat} {b : Byte} (h : s.mem.wf) (hx : x ≠ a) :
    (putBytes a [b] s).byteAt x = s.byteAt x :=
  byteAt_putBytes_outside h (by rw [List.length_singleton]; omega)

/-- Settles O15, by the rules for a read inside and outside the bytes written. -/
theorem memoryReadsBackWhatWasWritten : Obligations.MemoryReadsBackWhatWasWritten := by
  intro m a bs h
  refine ⟨Memory.readBytes_writeBytes h, fun x hx => Memory.read_writeBytes_outside h hx, Memory.wf_writeBytes h, ?_⟩
  rintro s rfl
  exact ⟨bytesAt_putBytes h, fun x hx => byteAt_putBytes_outside h hx⟩

/-! ### Admission -/

theorem all_addrsFrom {q : Nat → Bool} {a n : Nat} :
    (addrsFrom a n).all q = true ↔ ∀ k, k < n → q (a + k) = true := by
  simp [addrsFrom]

theorem Platform.readableAt_iff {p : Platform} {a : Nat} :
    p.readableAt a = true ↔ ∃ r ∈ p.map, r.readable = true ∧ r.base ≤ a ∧ a < r.base + r.size := by
  simp [Platform.readableAt, and_assoc]

theorem Platform.writableAt_iff {p : Platform} {a : Nat} :
    p.writableAt a = true ↔ ∃ r ∈ p.map, r.writable = true ∧ r.base ≤ a ∧ a < r.base + r.size := by
  simp [Platform.writableAt, and_assoc]

theorem admitR_iff {p : Platform} {a n : Nat} :
    admitR p a n = true ↔ n = 0 ∨ (a + n ≤ 2 ^ p.addrW ∧ ∀ k, k < n → p.readableAt (a + k) = true) := by
  simp only [admitR, Bool.or_eq_true, beq_iff_eq, Bool.and_eq_true, decide_eq_true_eq, all_addrsFrom]

theorem admitW_iff {p : Platform} {a n : Nat} :
    admitW p a n = true ↔ n = 0 ∨ (a + n ≤ 2 ^ p.addrW ∧ ∀ k, k < n → p.writableAt (a + k) = true) := by
  simp only [admitW, Bool.or_eq_true, beq_iff_eq, Bool.and_eq_true, decide_eq_true_eq, all_addrsFrom]

/-- Settles O16: a range is admitted byte by byte, and a byte by some region of the map. -/
theorem admissionAsksEveryByteOfTheRange : Obligations.AdmissionAsksEveryByteOfTheRange := by
  intro p a n
  refine ⟨p.addrW_range, admitR_iff.mpr (.inl rfl), ?_, ?_⟩
  · simp only [admitR_iff, Platform.readableAt_iff]
  · simp only [admitW_iff, Platform.writableAt_iff]

/-! ### Where the message is read -/

theorem addrsFrom_append (a m n : Nat) : addrsFrom a m ++ addrsFrom (a + m) n = addrsFrom a (m + n) := by
  simp [addrsFrom, List.range_add, Nat.add_assoc]

/-- Blocks of sixteen bytes, one after the other, are one range. -/
theorem flatMap_addrsFrom_blocks (a n : Nat) :
    (List.range n).flatMap (fun j => addrsFrom (a + 16 * j) 16) = addrsFrom a (16 * n) := by
  induction n with
  | zero => rfl
  | succ n ih => rw [List.range_succ, List.flatMap_append, ih, List.flatMap_singleton, addrsFrom_append, Nat.mul_succ]

/-- An index that fits `I` is the block `U_CHAIN` reads. -/
theorem eaBlock_ofNat (e : Engine) {j : Nat} (h : j < 2 ^ 13) :
    eaBlock { e with i := BitVec.ofNat 13 j } = e.msgBase.toNat + 16 * j := by
  simp only [eaBlock, BitVec.toNat_ofNat, Nat.mod_eq_of_lt h]

/-- Settles O17: the complete blocks and then the last chunk are one range, and together they are `LEN` long. -/
theorem everyMessageByteIsReadOnce : Obligations.EveryMessageByteIsReadOnce := by
  intro e hc
  obtain ⟨hn, -, hr⟩ := hc
  have hblocks :
      (List.range (e.n.toNat - 1)).flatMap (fun j => addrsFrom (eaBlock { e with i := BitVec.ofNat 13 j }) 16) =
        addrsFrom e.msgBase.toNat (16 * (e.n.toNat - 1)) := by
    rw [← flatMap_addrsFrom_blocks]
    refine List.flatMap_congr fun j hj => ?_
    have hlt := List.mem_range.mp hj
    rw [eaBlock_ofNat e (by omega)]
  have hlen : 16 * (e.n.toNat - 1) + e.r.toNat = e.len.toNat := by rw [hn, hr, count_splits]
  rw [hblocks, eaLast, addrsFrom_append, hlen]

/-! ### What an instruction leaves alone -/

/-- The platform, what the other agents still hold and have seen, and the counter of free values. -/
def State.surroundings (s : State) :
    Platform × List HostAction × List Block × List PlatformAction × List Agent × Byte × Outputs × Nat :=
  (s.plat, s.host, s.oracle, s.platActs, s.turns, s.hLoad, s.hOuts, s.free)

/-- No command touches memory or the surroundings. -/
theorem CommandEffect.frame (h : CommandEffect s t) :
    t.surroundings = s.surroundings ∧ t.mem = s.mem ∧ t.torn = s.torn := by
  cases h with
  | held _ e => subst e; exact ⟨rfl, rfl, rfl⟩
  | setup _ _ e => subst e; exact ⟨rfl, rfl, rfl⟩
  | error _ _ _ e => subst e; exact ⟨rfl, rfl, rfl⟩
  | digest _ _ _ _ _ _ e => subst e; exact ⟨rfl, rfl, rfl⟩

/-- No instruction touches the surroundings, and none but `U_WRITE` touches memory. -/
theorem exec_frame (h : exec i s = .next t) :
    t.surroundings = s.surroundings ∧ (i ≠ .uWrite → t.mem = s.mem ∧ t.torn = s.torn) := by
  cases i with
  | setup cap =>
    obtain ⟨hs, hm⟩ := (execSetup_effect h).frame
    exact ⟨hs, fun _ => hm⟩
  | digest len =>
    obtain ⟨hs, hm⟩ := (execDigest_effect h).frame
    exact ⟨hs, fun _ => hm⟩
  | wr idx data =>
    rcases execWr_next h with ⟨_, hc⟩ | ⟨_, rfl⟩ | ⟨_, rfl⟩ | ⟨_, rfl⟩
    · obtain ⟨hs, hm⟩ := hc.frame
      exact ⟨hs, fun _ => hm⟩
    all_goals exact ⟨rfl, fun _ => ⟨rfl, rfl⟩⟩
  | rd idx => obtain ⟨opened, rfl, _⟩ := execRd_next h; exact ⟨rfl, fun _ => ⟨rfl, rfl⟩⟩
  | uSubkeyL =>
    rcases execUSubkeyL_next h with ⟨_, rfl⟩ | ⟨_, r, _, rfl⟩ <;> exact ⟨rfl, fun _ => ⟨rfl, rfl⟩⟩
  | uSubkeyK1 => cases h; exact ⟨rfl, fun _ => ⟨rfl, rfl⟩⟩
  | uSubkeyK2 => cases h; exact ⟨rfl, fun _ => ⟨rfl, rfl⟩⟩
  | uCount => cases h; exact ⟨rfl, fun _ => ⟨rfl, rfl⟩⟩
  | uLast => obtain ⟨_, _, m, _, rfl⟩ := execULast_next h; exact ⟨rfl, fun _ => ⟨rfl, rfl⟩⟩
  | uInit => cases h; exact ⟨rfl, fun _ => ⟨rfl, rfl⟩⟩
  | uChain =>
    rcases execUChain_next h with ⟨_, r, _, rfl⟩ | ⟨_, _, rfl⟩ | ⟨_, _, _, rfl⟩ <;>
      exact ⟨rfl, fun _ => ⟨rfl, rfl⟩⟩
  | uFinal => rcases execUFinal_next h with ⟨_, rfl⟩ | ⟨_, r, _, rfl⟩ <;> exact ⟨rfl, fun _ => ⟨rfl, rfl⟩⟩
  | uWrite => obtain ⟨_, rfl⟩ := execUWrite_next h; exact ⟨rfl, nofun⟩

/-- Only `U_WRITE` changes a byte. -/
theorem exec_byteAt (h : exec i s = .next t) (hi : i ≠ .uWrite) (a : Nat) : t.byteAt a = s.byteAt a := by
  obtain ⟨hmem, htorn⟩ := (exec_frame h).2 hi
  exact State.byteAt_congr hmem htorn a

/-- Settles O36. -/
theorem otherInstructionsLeaveMemoryAlone : Obligations.OtherInstructionsLeaveMemoryAlone := by
  intro i s t h
  have hs := (exec_frame h).1
  simp only [State.surroundings, Prod.mk.injEq] at hs
  exact ⟨exec_byteAt h, hs⟩

/-! ### A host store and a host load -/

section HostAccess

variable {a : Word} {b : Byte}

theorem isBusy_iff {e : Engine} : isBusy e = true ↔ e.status = .busy := by simp [isBusy]

/-- A store to a message byte of a digest that runs. -/
theorem hostStore_message (space : a.toNat < 2 ^ s.plat.addrW) (hb : s.eng.status = .busy)
    (hm : isMessageByte s.eng a.toNat = true) : hostStore a b s = .refused .messageChanged := by
  simp [hostStore, Nat.not_le.mpr space, isBusy_iff, hb, hm]

/-- A store to a tag byte that is no message byte, while its digest runs or its `DONE` is not observed. -/
theorem hostStore_tag (space : a.toNat < 2 ^ s.plat.addrW)
    (hm : ¬ (s.eng.status = .busy ∧ isMessageByte s.eng a.toNat = true))
    (ht : (s.eng.status = .busy ∧ isTagByte s.eng a.toNat = true) ∨ a.toNat ∈ s.tagOpen) :
    hostStore a b s = .refused .tagDisturbed := by
  simp only [hostStore, Nat.not_le.mpr space, Bool.and_eq_true, Bool.or_eq_true, decide_eq_true_eq, isBusy_iff, hm, ht,
    if_false, if_true]

/-- Every other store to an address that exists happens. -/
theorem hostStore_free (space : a.toNat < 2 ^ s.plat.addrW)
    (hm : ¬ (s.eng.status = .busy ∧ isMessageByte s.eng a.toNat = true))
    (ht : ¬ (s.eng.status = .busy ∧ isTagByte s.eng a.toNat = true)) (closed : a.toNat ∉ s.tagOpen) :
    hostStore a b s = .next (putBytes a.toNat [b] s) := by
  simp only [hostStore, Nat.not_le.mpr space, Bool.and_eq_true, Bool.or_eq_true, decide_eq_true_eq, isBusy_iff, hm, ht,
    closed, or_self, if_false]

/-- A load of a byte the host may rely on. -/
theorem hostLoad_closed (space : a.toNat < 2 ^ s.plat.addrW) (closed : a.toNat ∉ s.tagOpen) :
    hostLoad a s = .next { s with hLoad := s.byteAt a.toNat } := by
  simp only [hostLoad, Nat.not_le.mpr space, closed, if_false]

/-- A store at the host's turn. -/
theorem step_of_store {rest : List HostAction} {turns : List Agent} (hh : s.host = .store a b :: rest)
    (ht : s.turns = .host :: turns) : step s = hostStore a b { s with host := rest, turns := turns } := by
  rw [step_of_hostTurn ht hh rfl]
  simp [hostPerform, hostCode, hostRest]

end HostAccess

/-- Settles O54, the store taken to `hostStore` and its three answers. -/
theorem storesAgainstTheHostsDutyAreRefused : Obligations.StoresAgainstTheHostsDutyAreRefused := by
  intro s a b rest turns space hh hturns
  rw [step_of_store hh hturns]
  refine ⟨fun hb hm => hostStore_message space hb hm, fun hm =>
    ⟨fun ht => hostStore_tag space hm ht, fun ht closed hwf => ?_⟩⟩
  exact ⟨_, hostStore_free space hm ht closed, rfl, wf_putBytes hwf, byteAt_putBytes_singleton_same hwf,
    fun x hx => byteAt_putBytes_singleton_other hwf hx⟩

/-- Settles O55: the read of `DONE` empties the list of tag bytes, and no digest runs. -/
theorem theTagIsVisibleOnceDoneIsRead : Obligations.TheTagIsVisibleOnceDoneIsRead := by
  intro s a hdone _ space
  have hread : exec (.rd 1) s = .next { s with hRdata := readReg s.eng 1, tagOpen := [] } := by
    simp [exec, execRd_eq, hdone]
  have hidle {P : Prop} : ¬ (s.eng.status = .busy ∧ P) := by simp [hdone]
  exact ⟨_, hread, hostLoad_closed space List.not_mem_nil, fun b => hostStore_free space hidle hidle List.not_mem_nil⟩

/-! ### Who may change a byte -/

/-- Why a byte reads otherwise after a step that took the engine from `e` to `e'`, `host` being the host's actions: it is a
tag byte in `P_WRITE`; the host stored to it and no running digest has it in its message; or it is a tag byte of a digest
that reset ended. -/
inductive ByteChange (e e' : Engine) (host : List HostAction) (a : Nat) : Prop
  | tagWrite (phase : e.phase = .write) (tag : e.tagBase.toNat ≤ a ∧ a < e.tagBase.toNat + 16)
  | store (x : Word) (b : Byte) (rest : List HostAction) (hh : host = .store x b :: rest) (ha : a = x.toNat)
      (free : e.status = .busy → isMessageByte e a = false)
  | reset (busy : e.status = .busy) (idle : e'.status = .idle ∧ e'.ctxValid = false)
      (tag : e.tagBase.toNat ≤ a ∧ a < e.tagBase.toNat + 16)

theorem phase_of_uWrite {p : Phase} (h : phaseInstr p = some .uWrite) : p = .write := by
  cases p <;> simp [phaseInstr] at h ⊢

/-- A micro-operation that changes a byte is `U_WRITE`, and the byte is in the tag buffer. -/
theorem ByteChange.of_microOp (hwf : s.mem.wf) (hi : phaseInstr s.eng.phase = some i) (h : exec i s = .next t)
    (hne : t.byteAt x ≠ s.byteAt x) : ByteChange s.eng t.eng s.host x := by
  obtain rfl : i = .uWrite := by
    by_contra hw
    exact hne (exec_byteAt h hw x)
  obtain ⟨_, rfl⟩ := execUWrite_next h
  refine .tagWrite (phase_of_uWrite hi) ?_
  by_contra htag
  refine hne (byteAt_putBytes_outside hwf (a := eaTag s.eng) (bs := blockBytes s.eng.x) ?_)
  rw [length_blockBytes, eaTag]
  omega

/-- A reset that changes a byte ends a digest, and the byte is in its tag buffer. -/
theorem ByteChange.of_reset (hne : (resetPulse s).byteAt x ≠ s.byteAt x) :
    ByteChange s.eng (resetPulse s).eng s.host x := by
  have hout : ¬ (s.eng.status = .busy → x < s.eng.tagBase.toNat ∨ s.eng.tagBase.toNat + 16 ≤ x) :=
    mt byteAt_resetPulse hne
  push Not at hout
  obtain ⟨busy, tag⟩ := hout
  exact .reset busy ⟨rfl, rfl⟩ tag

/-- A host action that changes a byte is a store to it or a reset. -/
theorem ByteChange.of_hostEffect {act : HostAction} {host rest : List HostAction} (hwf : s.mem.wf)
    (hh : host = act :: rest) (he : HostEffect act s t) (hne : t.byteAt x ≠ s.byteAt x) :
    ByteChange s.eng t.eng host x := by
  cases he with
  | wr idx d _ h => exact absurd (exec_byteAt (i := .wr idx d) h nofun x) hne
  | rd idx h => exact absurd (exec_byteAt (i := .rd idx) h nofun x) hne
  | look e => exact absurd (State.byteAt_congr (by simp [e]) (by simp [e]) x) hne
  | reset e =>
    subst e
    exact .of_reset (s := { s with host := host }) hne
  | store y b ha _ free _ e =>
    subst e ha
    have hx : x = y.toNat := by
      by_contra hxy
      exact hne (byteAt_putBytes_singleton_other hwf hxy)
    exact .store y b rest hh hx fun hb => hx ▸ (free (isBusy_iff.mpr hb)).1
  | load b n e => exact absurd (State.byteAt_congr (by rw [e]) (by rw [e]) x) hne

/-- A step that changes a byte is one of the three; the adapter and the platform change none. -/
theorem ByteChange.of_step (hwf : s.mem.wf) (h : step s = .next t) (hne : t.byteAt x ≠ s.byteAt x) :
    ByteChange s.eng t.eng s.host x := by
  obtain ⟨turns, hmove⟩ := step_next h
  cases hmove with
  | pass e => exact absurd (State.byteAt_congr (by rw [e]) (by rw [e]) x) hne
  | engine i hi _ he => exact .of_microOp (s := { s with turns := turns }) hwf hi he hne
  | adapter r _ _ e => exact absurd (State.byteAt_congr (by simp [e]) (by simp [e]) x) hne
  | host act rest hh _ he =>
    exact .of_hostEffect (s := { s with turns := turns, host := hostRest s.eng act rest }) hwf hh he hne
  | platform act rest _ e =>
    subst e
    cases act with
    | attach c cipher => exact absurd (State.byteAt_congr rfl rfl x) hne
    | remap map => exact absurd (State.byteAt_congr rfl rfl x) hne
  | reset e =>
    subst e
    exact .of_reset (s := { s with turns := turns }) hne

/-- Buffers that do not overlap share no byte. -/
theorem not_message_of_tag {msg len tag a : Nat} (apart : overlaps msg len tag = false)
    (h : tag ≤ a ∧ a < tag + 16) : ¬ (msg ≤ a ∧ a < msg + len) := by
  simp only [overlaps, Bool.and_eq_false_iff, decide_eq_false_iff_not] at apart
  omega

/-- Settles O53: in each of the three cases the byte is outside the message, by `busy_apart` for a tag byte and by the host's
duty for a store. -/
theorem memoryChangesOnlyByTagWriteOrHostStore : Obligations.MemoryChangesOnlyByTagWriteOrHostStore := by
  intro s t a hinv hstep hne
  cases ByteChange.of_step hinv.mem_wf hstep hne with
  | tagWrite phase tag =>
    exact ⟨.inl ⟨phase, tag⟩, fun ⟨busy, hm⟩ => not_message_of_tag (hinv.busy_apart busy) tag hm⟩
  | store x b rest hh ha free =>
    refine ⟨.inr (.inl ⟨x, b, rest, hh, ha⟩), fun ⟨busy, hm⟩ => ?_⟩
    simpa [isMessageByte, hm] using free busy
  | reset busy idle tag =>
    exact ⟨.inr (.inr ⟨busy, idle.1, idle.2, tag⟩), fun ⟨_, hm⟩ =>
      not_message_of_tag (hinv.busy_apart busy) tag hm⟩

end Sys2Proof.Machine

/-! Encoding (30_encoding.md): the fields of a command word, that the decoder and the encoder agree in the three code
spaces, which words are illegal, and the transaction a host step runs. -/

namespace Sys2Proof.Machine

variable {s : State} {i : Instr} {w : Word}

/-! ### The fields of a command word -/

theorem toNat_opcOf (w : Word) : (opcOf w).toNat = w.toNat % 2 ^ 8 := by
  rw [opcOf, BitVec.extractLsb'_toNat, Nat.shiftRight_zero]

theorem toNat_rsvzOf (w : Word) : (rsvzOf w).toNat = w.toNat / 2 ^ 8 % 2 ^ 8 := by
  rw [rsvzOf, BitVec.extractLsb'_toNat, Nat.shiftRight_eq_div_pow]

theorem toNat_immOf (w : Word) : (immOf w).toNat = w.toNat / 2 ^ 16 := by
  rw [immOf, BitVec.extractLsb'_toNat, Nat.shiftRight_eq_div_pow, Nat.mod_eq_of_lt]
  omega

@[simp] theorem opcOf_commandWord (imm : BitVec 16) (opc : BitVec 8) : opcOf (commandWord imm opc) = opc := by
  apply BitVec.eq_of_toNat_eq
  rw [toNat_opcOf, Laws.TablePattern.toNat_commandWord]
  omega

@[simp] theorem rsvzOf_commandWord (imm : BitVec 16) (opc : BitVec 8) : rsvzOf (commandWord imm opc) = 0 := by
  apply BitVec.eq_of_toNat_eq
  rw [toNat_rsvzOf, Laws.TablePattern.toNat_commandWord]
  change _ = 0
  omega

@[simp] theorem immOf_commandWord (imm : BitVec 16) (opc : BitVec 8) : immOf (commandWord imm opc) = imm := by
  apply BitVec.eq_of_toNat_eq
  rw [toNat_immOf, Laws.TablePattern.toNat_commandWord]
  omega

/-- A word with `RSVZ` zero is made of its other two fields. -/
theorem commandWord_immOf_opcOf (h : rsvzOf w = 0) : commandWord (immOf w) (opcOf w) = w := by
  apply BitVec.eq_of_toNat_eq
  have hz : w.toNat / 2 ^ 8 % 2 ^ 8 = 0 := by
    rw [← toNat_rsvzOf, h]
    rfl
  rw [Laws.TablePattern.toNat_commandWord, toNat_immOf, toNat_opcOf]
  omega

/-- The two halves of a word as numbers make it a command word. -/
theorem eq_commandWord {imm : BitVec 16} {opc : BitVec 8} (himm : imm.toNat = w.toNat / 65536)
    (hlow : w.toNat % 65536 = opc.toNat) : w = commandWord imm opc := by
  apply BitVec.eq_of_toNat_eq
  rw [Laws.TablePattern.toNat_commandWord]
  omega

/-! ### Command words -/

theorem decode_setup (cap : Handle) : decode (.command (commandWord cap 0x01)) = .ok (.setup cap) := by
  simp [decode, decodeCommand]

theorem decode_digest (len : BitVec 16) : decode (.command (commandWord len 0x02)) = .ok (.digest len) := by
  simp [decode, decodeCommand]

/-- A word that decodes is what the encoder writes for its instruction. -/
theorem encode_of_decodeCommand (h : decodeCommand w = .ok i) : encode i = .command w := by
  unfold decodeCommand at h
  split_ifs at h with hrsvz hsetup hdigest
  · cases h
    rw [encode, ← hsetup, commandWord_immOf_opcOf (not_not.mp hrsvz)]
  · cases h
    rw [encode, ← hdigest, commandWord_immOf_opcOf (not_not.mp hrsvz)]

/-- A word is illegal by its reserved bits or by its operation code (30_encoding.md R95). -/
theorem decodeCommand_illegal (h : (opcOf w ≠ 0x01 ∧ opcOf w ≠ 0x02) ∨ rsvzOf w ≠ 0) :
    ∃ e, decodeCommand w = .error e := by
  unfold decodeCommand
  by_cases hrsvz : rsvzOf w ≠ 0
  · exact ⟨_, if_pos hrsvz⟩
  · obtain ⟨h1, h2⟩ := h.resolve_right hrsvz
    exact ⟨_, by rw [if_neg hrsvz, if_neg h1, if_neg h2]⟩

/-- An illegal word accepted by the engine is error entry and nothing else (60_exceptions.md R215). -/
theorem execWr_illegal {e : DecodeError} (hb : s.eng.status ≠ .busy) (h : decodeCommand w = .error e) :
    execWr 0 w s = .next (raise .cmd s) := by
  have hidle : ¬ isBusy s.eng = true := mt isBusy_iff.mp hb
  rw [execWr, if_pos rfl, if_neg hidle, acceptWord, h]
  rfl

/-! ### Port patterns and `PHASE` codes -/

/-- A port pattern is `1iii` or `0iii` (30_encoding.md R96). -/
theorem port_pattern_cases (p : BitVec 4) :
    ∃ idx : BitVec 3, (p = 1#1 ++ idx ∧ p.getLsbD 3 = true) ∨ (p = 0#1 ++ idx ∧ p.getLsbD 3 = false) := by
  revert p
  decide

/-- A port pattern is what the encoder writes for its transaction, but for the write data of a read. -/
theorem encode_decodePort (p : BitVec 4) (d : Word) :
    encode (decodePort p d) = .port p (if p.getLsbD 3 then d else 0) := by
  obtain ⟨idx, ⟨rfl, hbit⟩ | ⟨rfl, hbit⟩⟩ := port_pattern_cases p
  · rw [decodePort_wr, hbit, if_pos rfl, encode]
  · rw [decodePort_rd, hbit, if_neg Bool.false_ne_true, encode]

/-- A `PHASE` code that decodes is what the encoder writes for its micro-operation. -/
theorem encode_of_decodePhase {c : BitVec 4} (h : decodePhase c = .ok i) : encode i = .phase c := by
  unfold decodePhase at h
  split_ifs at h <;> cases h <;> subst c <;> rfl

theorem decodePhase_reserved {c : BitVec 4} (h : 10 ≤ c.toNat) : decodePhase c = .error .phaseReserved := by
  have hne (k : BitVec 4) (hk : k.toNat < 10) : c ≠ k := by
    rintro rfl
    omega
  simp (disch := decide) only [decodePhase, hne, if_false]

/-! ### The obligations -/

/-- Settles O1, one instruction at a time: the fields of a command word, the two port patterns, the nine `PHASE` codes. -/
theorem decodeReadsBackWhatEncodeWrites : Obligations.DecodeReadsBackWhatEncodeWrites := by
  intro i
  cases i with
  | setup cap => exact decode_setup cap
  | digest len => exact decode_digest len
  | wr idx data => exact congrArg Except.ok (decodePort_wr idx data)
  | rd idx => exact congrArg Except.ok (decodePort_rd idx 0)
  | uSubkeyL | uSubkeyK1 | uSubkeyK2 | uCount | uLast | uInit | uChain | uFinal | uWrite => rfl

/-- Settles O2, one code space at a time. -/
theorem encodeGivesBackTheDecodedCode : Obligations.EncodeGivesBackTheDecodedCode := by
  refine ⟨fun w i h => encode_of_decodeCommand h, fun p d i h => ?_, fun c i h => encode_of_decodePhase h⟩
  obtain rfl : decodePort p d = i := Except.ok.inj h
  exact encode_decodePort p d

/-- Settles O4, the fields read as numbers. -/
theorem illegalWordsOnlyReportAnError : Obligations.IllegalWordsOnlyReportAnError := by
  intro w h
  have hfields : (opcOf w ≠ 0x01 ∧ opcOf w ≠ 0x02) ∨ rsvzOf w ≠ 0 := by
    simp only [ne_eq, BitVec.toNat_eq, toNat_opcOf, toNat_rsvzOf]
    exact h
  obtain ⟨e, he⟩ := decodeCommand_illegal hfields
  exact ⟨⟨e, he⟩, fun s hb => execWr_illegal hb he⟩

/-- Settles O3. -/
theorem commandWordsDecodeByTheOpcodeMap : Obligations.CommandWordsDecodeByTheOpcodeMap := by
  intro w imm himm
  refine ⟨fun hlow => ?_, fun hlow => ?_⟩
  · rw [eq_commandWord (opc := 0x01) himm hlow]
    exact decode_setup imm
  · rw [eq_commandWord (opc := 0x02) himm hlow]
    exact decode_digest imm

/-- Settles O5: the legal words are command words of the encoder, the others are illegal by O4. -/
theorem workedEncodingsDecodeAsStated : Obligations.WorkedEncodingsDecodeAsStated := by
  refine ⟨decode_setup 1, decode_setup 0, decode_digest 0, decode_digest 16, decode_digest 40, decode_digest 65535,
    fun w hw => (illegalWordsOnlyReportAnError w ?_).1⟩
  simp only [List.mem_cons, List.not_mem_nil, or_false] at hw
  rcases hw with rfl | rfl | rfl | rfl <;> decide

/-- Settles O6: the nine codes are those the encoder writes. -/
theorem phaseCodesNameTheMicroOperations : Obligations.PhaseCodesNameTheMicroOperations :=
  have back := decodeReadsBackWhatEncodeWrites
  ⟨back .uSubkeyL, back .uSubkeyK1, back .uSubkeyK2, back .uCount, back .uLast, back .uInit, back .uChain, back .uFinal,
    back .uWrite, fun _ => rfl, fun _ => decodePhase_reserved⟩

/-- Settles O46. -/
theorem aHostStepRunsTheDecodedTransaction : Obligations.AHostStepRunsTheDecodedTransaction := by
  intro s a c i rest turns ht hh held hcode hdecode
  rw [step_of_hostTurn ht hh held]
  simp only [hostPerform, hcode, runCode, hdecode]

end Sys2Proof.Machine

/-! The cipher adapter (40_cipher_adapter.md): which answer it gives at its turn and what becomes of it, when nobody is
left to move, and the requests a whole digest makes. -/

namespace Sys2Proof.Machine

variable {s t : State} {i : Instr} {q : Request} {r : Block} {c : Cipher} {E : Block → Block}

/-! ### The adapter's turn -/

/-- Left to the attached cipher, the adapter answers the outstanding request under the handle it names. -/
theorem adapterAnswer_of_request (ho : s.oracle = []) (hq : s.encReq = some q) :
    adapterAnswer s = (s.plat.adapter q.cap).map (fun c => c.encrypt q.block) := by
  simp only [adapterAnswer, ho, hq]

theorem takeTurn_adapter (port : s.encRsp = none) (hr : adapterAnswer s = some r) :
    takeTurn .adapter s = .next (presentAnswer r { s with oracle := s.oracle.tail }) := by
  have can : canMove .adapter s = true := by simp [canMove, adapterCan, hr, port]
  rw [takeTurn, if_pos can, act, adapterMove, hr]

/-- The turn passes, or an answer is presented. -/
theorem takeTurn_adapter_next (h : takeTurn .adapter s = .next t) :
    t = s ∨ ∃ r, t = presentAnswer r { s with oracle := s.oracle.tail } := by
  simp only [takeTurn, act, adapterMove] at h
  split at h
  · split at h
    · exact .inl (Host.Outcome.next.inj h).symm
    · exact .inr ⟨_, (Host.Outcome.next.inj h).symm⟩
  · exact .inl (Host.Outcome.next.inj h).symm

theorem step_eq_takeTurn {g : Agent} {turns : List Agent} (ht : s.turns = g :: turns) :
    step s = takeTurn g { s with turns := turns } := by
  simp only [step, stepOf, ht]

/-- Settles O38. -/
theorem theAttachedCipherAnswersTheRequest : Obligations.TheAttachedCipherAnswersTheRequest := by
  intro s q c turns ht ho pend port hq hc
  have hr : adapterAnswer s = some (c.encrypt q.block) := by
    rw [adapterAnswer_of_request ho hq, hc, Option.map_some]
  rw [step_eq_takeTurn ht, takeTurn_adapter (s := { s with turns := turns }) port hr]
  simp [presentAnswer, pend, ho]

/-- Settles O39: an answer presented to an engine that awaits none does not come onto its port. -/
theorem answersNotAwaitedAreIgnored : Obligations.AnswersNotAwaitedAreIgnored := by
  intro s t turns ht pend h
  rw [step_eq_takeTurn ht] at h
  rcases takeTurn_adapter_next h with rfl | ⟨r, rfl⟩
  · exact ⟨rfl, rfl, rfl⟩
  · simp [pend]

/-! ### An awaited answer -/

/-- While the answer is awaited, its request stands: `CTX.CAP` with the register that `ENC_DST` names. -/
theorem State.Inv.encReq_of_pend (h : s.Inv) (pend : s.eng.encPend = true) (port : s.encRsp = none) :
    s.encReq = some ⟨s.eng.ctxCap, encReg s.eng⟩ := by
  obtain ⟨q, hq⟩ := Option.ne_none_iff_exists'.mp (h.pend_open pend port)
  rw [hq, h.pend_request pend q hq]

theorem engineCan_of_waiting (pend : s.eng.encPend = true) (port : s.encRsp = none) : engineCan s = false := by
  simp [engineCan, pend, port]

/-- Settles O41: the engine waits, the adapter has no answer, and the other agents hold nothing. -/
theorem anUnattachedHandleLeavesTheEngineStuck : Obligations.AnUnattachedHandleLeavesTheEngineStuck := by
  intro s h pend port ho ht hhost hacts hc
  have engine := engineCan_of_waiting pend port
  have adapter : adapterCan s = false := by
    simp [adapterCan, adapterAnswer_of_request ho (h.encReq_of_pend pend port), hc]
  have host : hostCan s = false := by simp [hostCan, hhost]
  have running : s.eng.phase ≠ .idle := h.busy_iff.mp (h.busy_of_pend pend)
  simp [step, stepOf, ht, freeRun, canMove, engine, adapter, host, hacts, running, pend]

theorem State.Inv.encDst_l (h : s.Inv) (pend : s.eng.encPend = true) (hp : s.eng.phase = .subkeyL) :
    s.eng.encDst = .l :=
  (h.pend_dst pend).mpr hp

theorem State.Inv.encDst_x (h : s.Inv) (pend : s.eng.encPend = true) (hp : s.eng.phase ≠ .subkeyL) :
    s.eng.encDst = .x := by
  cases hd : s.eng.encDst with
  | l => exact absurd ((h.pend_dst pend).mp hd) hp
  | x => rfl

/-- The index of a block in flight is below `N`, so counting it up does not wrap. -/
theorem toNat_i_succ {e : Engine} (h : e.i.toNat + 1 < e.n.toNat) : (e.i + 1).toNat = e.i.toNat + 1 := by
  bv_omega

/-! ### What the registers hold, one phase at a time -/

/-- What `Tracks` asks of the registers in a phase. -/
def State.TracksAt (E : Block → Block) (s : State) : Phase → Prop
  | .subkeyL => s.eng.encPend = true → s.eng.l = zero16
  | .subkeyK1 => s.eng.l = E zero16
  | .subkeyK2 => s.eng.k1 = dbl (E zero16)
  | .count | .last => (s.eng.k1, s.eng.k2) = subkeys E
  | .init => s.eng.mlast = finishedLast E s.message s.eng.len.toNat
  | .chain => s.eng.mlast = finishedLast E s.message s.eng.len.toNat ∧
    (s.eng.encPend = false → s.eng.x = chainValue E s.message s.eng.i.toNat) ∧
    (s.eng.encPend = true →
      s.eng.x = chainValue E s.message s.eng.i.toNat ^^^ messageBlock s.message s.eng.i.toNat)
  | .final => s.eng.mlast = finishedLast E s.message s.eng.len.toNat ∧
    (s.eng.encPend = false → s.eng.x = chainValue E s.message (s.eng.n.toNat - 1)) ∧
    (s.eng.encPend = true →
      s.eng.x = chainValue E s.message (s.eng.n.toNat - 1) ^^^ finishedLast E s.message s.eng.len.toNat)
  | .write => s.eng.x = cmac E s.message s.eng.len.toNat
  | .idle => True

theorem State.Tracks.tracksAt (h : s.Tracks E) : s.TracksAt E s.eng.phase := by
  cases hp : s.eng.phase with
  | idle => trivial
  | subkeyL => exact h.zero hp
  | subkeyK1 => exact h.l hp
  | subkeyK2 => exact h.k1 hp
  | count => exact h.keys (.inl hp)
  | last => exact h.keys (.inr hp)
  | init => exact h.last (.inl hp)
  | chain => exact ⟨h.last (.inr (.inl hp)), h.chain hp, h.chainSent hp⟩
  | final => exact ⟨h.last (.inr (.inr hp)), h.final hp, h.finalSent hp⟩
  | write => exact h.tag hp

theorem State.Tracks.of_tracksAt (answer : ∀ r, s.encRsp = some r → r = E (encReg s.eng))
    (h : s.TracksAt E s.eng.phase) : s.Tracks E := by
  have hat {p : Phase} (hp : s.eng.phase = p) : s.TracksAt E p := hp ▸ h
  exact {
    answer, zero := hat, l := hat, k1 := hat, tag := hat
    keys := fun hp => hp.elim hat hat
    last := fun hp => hp.elim hat (·.elim (fun hp => (hat hp).1) (fun hp => (hat hp).1))
    chain := fun hp => (hat hp).2.1
    chainSent := fun hp => (hat hp).2.2
    final := fun hp => (hat hp).2.1
    finalSent := fun hp => (hat hp).2.2 }

/-! ### A micro-operation follows `CMAC` -/

/-- What a digest runs on: the operands, memory and the platform. -/
def State.inputs (s : State) := (s.eng.operands, s.mem, s.torn, s.plat)

theorem inputs_eq_iff : t.inputs = s.inputs ↔
    t.eng.operands = s.eng.operands ∧ t.mem = s.mem ∧ t.torn = s.torn ∧ t.plat = s.plat := by
  simp only [State.inputs, Prod.mk.injEq]

theorem operands_eq_iff {e e' : Engine} : e'.operands = e.operands ↔
    e'.ctxValid = e.ctxValid ∧ e'.ctxCap = e.ctxCap ∧ e'.msgAddr = e.msgAddr ∧ e'.tagAddr = e.tagAddr ∧
    e'.msgBase = e.msgBase ∧ e'.tagBase = e.tagBase ∧ e'.len = e.len ∧ e'.err = e.err := by
  simp only [Engine.operands, Prod.mk.injEq]

theorem message_of_inputs (h : t.inputs = s.inputs) : t.message = s.message := by
  obtain ⟨ops, hmem, htorn, _⟩ := inputs_eq_iff.mp h
  obtain ⟨_, _, _, _, hbase, _⟩ := operands_eq_iff.mp ops
  funext k
  rw [State.message, State.message, hbase, State.byteAt_congr hmem htorn]

theorem len_of_inputs (h : t.inputs = s.inputs) : t.eng.len = s.eng.len := by
  obtain ⟨_, _, _, _, _, _, hlen, _⟩ := operands_eq_iff.mp (inputs_eq_iff.mp h).1
  exact hlen

/-- Only `U_WRITE` changes what a digest runs on. -/
theorem microOp_inputs {p : Phase} (hi : phaseInstr p = some i) (hw : i ≠ .uWrite) (h : exec i s = .next t) :
    t.inputs = s.inputs := by
  obtain ⟨around, memory⟩ := exec_frame h
  simp only [State.surroundings, Prod.mk.injEq] at around
  obtain ⟨hmem, htorn⟩ := memory hw
  exact inputs_eq_iff.mpr ⟨microOp_operands hi h, hmem, htorn, around.1⟩

/-- `U_LAST` makes the last block of R150 (43_mac_engine.md R156). -/
theorem lastBlock_eq_finishedLast {m : Block} (counted : s.eng.counted)
    (keys : (s.eng.k1, s.eng.k2) = subkeys E)
    (h : lastBlock s.eng.flag (s.bytesAt (eaLast s.eng) s.eng.r.toNat) s.eng.k1 s.eng.k2 = some m) :
    m = finishedLast E s.message s.eng.len.toNat := by
  rw [bytesAt_lastChunk counted, counted.2.1] at h
  rw [finishedLast, ← keys]
  rcases lastBlock_some h with ⟨hflag, _, rfl⟩ | ⟨hflag, _, rfl⟩
  · rw [if_pos hflag]
  · rw [if_neg (by simp [hflag])]

/-- After a micro-operation no answer stands on the port: it was taken, or none was awaited. -/
theorem microOp_encRsp (h : s.Inv) (hi : phaseInstr s.eng.phase = some i) (he : exec i s = .next t) :
    t.encRsp = none := by
  have hquiet (hc : s.eng.phase.calls = false) : s.encRsp = none := h.encRsp_none (h.encPend_false hc)
  cases hp : s.eng.phase <;> rw [hp] at hi hquiet <;> cases hi
  case subkeyL =>
    rcases execUSubkeyL_next he with ⟨pend, rfl⟩ | ⟨_, r, _, rfl⟩
    · exact h.encRsp_none pend
    · rfl
  case last => obtain ⟨_, _, m, _, rfl⟩ := execULast_next he; exact hquiet rfl
  case chain =>
    rcases execUChain_next he with ⟨_, r, _, rfl⟩ | ⟨pend, _, rfl⟩ | ⟨pend, _, _, rfl⟩
    · rfl
    · exact h.encRsp_none pend
    · exact h.encRsp_none pend
  case final =>
    rcases execUFinal_next he with ⟨pend, rfl⟩ | ⟨_, r, _, rfl⟩
    · exact h.encRsp_none pend
    · rfl
  case write => obtain ⟨_, rfl⟩ := execUWrite_next he; exact hquiet rfl
  all_goals cases he; exact hquiet rfl

theorem State.Tracks.after_microOp (h : s.Inv) (htr : s.Tracks E) (hi : phaseInstr s.eng.phase = some i)
    (he : exec i s = .next t) : t.Tracks E := by
  refine .of_tracksAt (by simp [microOp_encRsp h hi he]) ?_
  have hat := htr.tracksAt
  have hcounted (hc : s.eng.phase.afterCount = true) : s.eng.counted := h.counted hc
  cases hp : s.eng.phase <;> rw [hp] at hi hat hcounted <;> cases hi
  case subkeyL =>
    rcases execUSubkeyL_next he with ⟨_, rfl⟩ | ⟨pend, r, hr, rfl⟩
    · rw [issue_eng_phase, hp]
      exact fun _ => rfl
    · have dst := h.encDst_l pend hp
      rw [htr.answer r hr, encReg_l_of _ dst, hat pend, setEncReg_l_of _ _ dst]
      rfl
  case subkeyK1 =>
    cases he
    exact congrArg dbl hat
  case subkeyK2 =>
    cases he
    have hk1 : s.eng.k1 = dbl (E zero16) := hat
    simp only [State.TracksAt, subkeys, hk1]
  case count =>
    cases he
    exact hat
  case last =>
    obtain ⟨_, _, m, hm, rfl⟩ := execULast_next he
    exact lastBlock_eq_finishedLast (hcounted rfl) hat hm
  case init =>
    have pend : s.eng.encPend = false := h.encPend_false (by rw [hp]; rfl)
    cases he
    exact ⟨hat, fun _ => rfl, by simp [pend]⟩
  case chain =>
    obtain ⟨last, chain, sent⟩ := hat
    rcases execUChain_next he with ⟨pend, r, hr, rfl⟩ | ⟨pend, hend, rfl⟩ | ⟨pend, _, _, rfl⟩
    · have dst := h.encDst_x pend (by simp [hp])
      rw [htr.answer r hr, encReg_x_of _ dst, sent pend, setEncReg_x_of _ _ dst, hp]
      refine ⟨last, fun _ => ?_, nofun⟩
      rw [toNat_i_succ (h.i_pend hp pend)]
      rfl
    · refine ⟨last, fun _ => ?_, by simp [pend]⟩
      rw [show s.eng.n.toNat - 1 = s.eng.i.toNat by omega]
      exact chain pend
    · rw [issue_eng_phase, hp]
      refine ⟨last, nofun, fun _ => ?_⟩
      rw [issue_eng_x, eaBlock, bytesAt_block, chain pend]
      rfl
  case final =>
    obtain ⟨last, chained, sent⟩ := hat
    rcases execUFinal_next he with ⟨pend, rfl⟩ | ⟨pend, r, hr, rfl⟩
    · rw [issue_eng_phase, hp]
      refine ⟨last, nofun, fun _ => ?_⟩
      rw [issue_eng_x, chained pend, last]
      rfl
    · have dst := h.encDst_x pend (by simp [hp])
      rw [htr.answer r hr, encReg_x_of _ dst, sent pend, setEncReg_x_of _ _ dst, (hcounted rfl).1]
      rfl
  case write => obtain ⟨_, rfl⟩ := execUWrite_next he; trivial

/-! ### How far a digest has come -/

/-- The answers taken so far, of the `N + 1` of a digest. -/
def Engine.answersTaken (e : Engine) : Nat :=
  match e.phase with
  | .subkeyL => 0
  | .subkeyK1 | .subkeyK2 | .count | .last | .init => 1
  | .chain => e.i.toNat + 1
  | .final => (count e.len.toNat).1
  | .write | .idle => (count e.len.toNat).1 + 1

/-- The requests made so far: one more while an answer is awaited. -/
def Engine.requestsMade (e : Engine) : Nat := e.answersTaken + if e.encPend then 1 else 0

/-- The steps before a phase that are no part of an adapter transaction. -/
def Phase.stepsAlone : Phase → Nat
  | .subkeyL | .subkeyK1 => 0
  | .subkeyK2 => 1
  | .count => 2
  | .last => 3
  | .init => 4
  | .chain => 5
  | .final | .write => 6
  | .idle => 7

/-- The steps of the engine and the adapter since the acceptance: three for a transaction, which are issue, answer and
completion, and those that are no part of one. -/
def State.stepsTaken (s : State) : Nat :=
  3 * s.eng.answersTaken + s.eng.phase.stepsAlone +
    if s.eng.encPend then (if s.encRsp = none then 1 else 2) else 0

/-- One step of a digest left alone: a micro-operation that needs no cipher, or a part of an adapter transaction. -/
inductive Progress (s t : State) : Prop
  | alone (before : s.eng.encPend = false) (after : t.eng.encPend = false)
      (taken : t.eng.answersTaken = s.eng.answersTaken)
      (steps : t.eng.phase.stepsAlone = s.eng.phase.stepsAlone + 1)
  | issue (before : s.eng.encPend = false) (after : t.eng.encPend = true) (port : t.encRsp = none)
      (taken : t.eng.answersTaken = s.eng.answersTaken) (steps : t.eng.phase.stepsAlone = s.eng.phase.stepsAlone)
  | answer (pend : s.eng.encPend = true) (before : s.encRsp = none) (after : t.encRsp ≠ none) (eng : t.eng = s.eng)
  | completion (before : s.eng.encPend = true) (port : s.encRsp ≠ none) (after : t.eng.encPend = false)
      (taken : t.eng.answersTaken = s.eng.answersTaken + 1)
      (steps : t.eng.phase.stepsAlone = s.eng.phase.stepsAlone)

theorem Progress.stepsTaken (h : Progress s t) : t.stepsTaken = s.stepsTaken + 1 := by
  cases h with
  | alone before after taken steps => simp [State.stepsTaken, before, after, taken, steps, Nat.add_assoc]
  | issue before after port taken steps => simp [State.stepsTaken, before, after, port, taken, steps]
  | answer pend before after eng => simp [State.stepsTaken, pend, before, after, eng]
  | completion before port after taken steps =>
    simp only [State.stepsTaken, before, port, after, taken, steps, if_true, if_false, Bool.false_eq_true]
    omega

theorem microOp_progress (h : s.Inv) (hi : phaseInstr s.eng.phase = some i) (he : exec i s = .next t) :
    Progress s t := by
  have port := microOp_encRsp h hi he
  have hquiet (hc : s.eng.phase.calls = false) : s.eng.encPend = false := h.encPend_false hc
  have hn (hc : s.eng.phase.afterCount = true) : s.eng.n.toNat = (count s.eng.len.toNat).1 := (h.counted hc).1
  cases hp : s.eng.phase <;> rw [hp] at hi hquiet hn <;> cases hi
  case subkeyL =>
    rcases execUSubkeyL_next he with ⟨pend, rfl⟩ | ⟨pend, r, hr, rfl⟩
    · exact .issue pend rfl port rfl rfl
    · exact .completion pend (by simp [hr]) rfl (by simp [Engine.answersTaken, hp]) (by rw [hp]; rfl)
  case chain =>
    rcases execUChain_next he with ⟨pend, r, hr, rfl⟩ | ⟨pend, hend, rfl⟩ | ⟨pend, _, _, rfl⟩
    · have hi := toNat_i_succ (h.i_pend hp pend)
      exact .completion pend (by simp [hr]) rfl
        (by simp only [Engine.answersTaken, setEncReg_phase, hp, hi]) (by simp)
    · exact .alone pend pend (by simp [Engine.answersTaken, hp, hend, hn rfl]) (by rw [hp]; rfl)
    · exact .issue pend rfl port rfl rfl
  case final =>
    rcases execUFinal_next he with ⟨pend, rfl⟩ | ⟨pend, r, hr, rfl⟩
    · exact .issue pend rfl port rfl rfl
    · exact .completion pend (by simp [hr]) rfl (by simp [Engine.answersTaken, hp]) (by rw [hp]; rfl)
  case last =>
    obtain ⟨_, _, m, _, rfl⟩ := execULast_next he
    exact .alone (hquiet rfl) (hquiet rfl) (by simp [Engine.answersTaken, hp]) (by rw [hp]; rfl)
  case write =>
    obtain ⟨_, rfl⟩ := execUWrite_next he
    exact .alone (hquiet rfl) (hquiet rfl) (by simp [Engine.answersTaken, hp]) (by rw [hp]; rfl)
  all_goals
    cases he
    exact .alone (hquiet rfl) (hquiet rfl) (by simp [Engine.answersTaken, hp]) (by rw [hp]; rfl)

/-- A digest with `N` blocks is in `P_WRITE` after `3*N + 9` steps, before them in an earlier phase, after them at rest. -/
theorem State.Inv.stepsTaken_cases (h : s.Inv) :
    (s.eng.phase ≠ .write ∧ s.eng.phase ≠ .idle ∧ s.stepsTaken < 3 * (count s.eng.len.toNat).1 + 9) ∨
    (s.eng.phase = .write ∧ s.stepsTaken = 3 * (count s.eng.len.toNat).1 + 9) ∨
    (s.eng.phase = .idle ∧ s.stepsTaken = 3 * (count s.eng.len.toNat).1 + 10) := by
  have hpos := count_blocks_pos s.eng.len.toNat
  have hrange := h.i_range
  have hn (hc : s.eng.phase.afterCount = true) : s.eng.n.toNat = (count s.eng.len.toNat).1 := (h.counted hc).1
  have hquiet (hc : s.eng.phase.calls = false) : s.eng.encPend = false := h.encPend_false hc
  have hwait : (if s.eng.encPend then (if s.encRsp = none then 1 else 2) else 0) ≤ 2 := by
    split_ifs <;> decide
  cases hp : s.eng.phase <;> rw [hp] at hrange hn hquiet
  all_goals simp only [State.stepsTaken, Engine.answersTaken, Phase.stepsAlone, hp]
  case write => exact .inr (.inl ⟨trivial, by simp [hquiet rfl, Nat.mul_succ]⟩)
  case idle => exact .inr (.inr ⟨trivial, by simp [hquiet rfl, Nat.mul_succ]⟩)
  case chain =>
    have hi := hrange rfl
    rw [hn rfl] at hi
    exact .inl ⟨nofun, nofun, by omega⟩
  all_goals exact .inl ⟨nofun, nofun, by omega⟩

/-! ### The requests of a digest -/

/-- The requests the digest makes as a whole (40_cipher_adapter.md R118). -/
def State.requests (E : Block → Block) (s : State) : List Request :=
  digestRequests s.eng.ctxCap E s.message s.eng.len.toNat

theorem requests_of_inputs (h : t.inputs = s.inputs) : t.requests E = s.requests E := by
  obtain ⟨_, hcap, _, _, _, _, hlen, _⟩ := operands_eq_iff.mp (inputs_eq_iff.mp h).1
  rw [State.requests, State.requests, message_of_inputs h, hcap, hlen]

@[simp] theorem length_digestRequests (cap : Handle) (E : Block → Block) (M : Nat → Byte) (len : Nat) :
    (digestRequests cap E M len).length = (count len).1 + 1 := by
  have hpos := count_blocks_pos len
  simp [digestRequests]
  omega

/-- The request for the message block `i`. -/
theorem digestRequests_block {cap : Handle} {M : Nat → Byte} {len i : Nat} (h : i + 1 < (count len).1) :
    (digestRequests cap E M len)[i + 1]? = some ⟨cap, chainValue E M i ^^^ messageBlock M i⟩ := by
  have hi : i < (count len).1 - 1 := by omega
  simp [digestRequests, List.getElem?_append, hi]

/-- The last request. -/
theorem digestRequests_last {cap : Handle} {M : Nat → Byte} {len : Nat} :
    (digestRequests cap E M len)[(count len).1]? =
      some ⟨cap, chainValue E M ((count len).1 - 1) ^^^ finishedLast E M len⟩ := by
  obtain ⟨n, hn⟩ := Nat.exists_eq_add_of_le' (count_blocks_pos len)
  simp [digestRequests, hn]

/-- The request whose answer is awaited is the next one of the digest. -/
theorem State.Tracks.encReq_eq (htr : s.Tracks E) (h : s.Inv) (pend : s.eng.encPend = true) (port : s.encRsp = none) :
    s.encReq = (s.requests E)[s.eng.answersTaken]? := by
  have hat := htr.tracksAt
  have hcalls := h.pend_phase pend
  have hn (hc : s.eng.phase.afterCount = true) : s.eng.n.toNat = (count s.eng.len.toNat).1 := (h.counted hc).1
  rw [h.encReq_of_pend pend port, State.requests]
  cases hp : s.eng.phase <;> rw [hp] at hat hcalls hn <;> cases hcalls
  case subkeyL =>
    rw [encReg_l_of _ (h.encDst_l pend hp), hat pend, Engine.answersTaken, hp]
    rfl
  case chain =>
    obtain ⟨_, _, sent⟩ := hat
    have hi := h.i_pend hp pend
    rw [encReg_x_of _ (h.encDst_x pend (by simp [hp])), sent pend, Engine.answersTaken, hp]
    exact (digestRequests_block (hn rfl ▸ hi)).symm
  case final =>
    obtain ⟨_, _, sent⟩ := hat
    rw [encReg_x_of _ (h.encDst_x pend (by simp [hp])), sent pend, Engine.answersTaken, hp, hn rfl]
    exact digestRequests_last.symm

/-- What a step issues continues the requests made so far. -/
theorem Progress.take_append_issuedBy (h : Progress s t) (hinv : t.Inv) (htr : t.Tracks E) :
    (t.requests E).take s.eng.requestsMade ++ issuedBy s t = (t.requests E).take t.eng.requestsMade := by
  cases h with
  | alone before after taken _ => simp [issuedBy, Engine.requestsMade, before, after, taken]
  | issue before after port taken _ =>
    simp [issuedBy, Engine.requestsMade, before, after, ← taken, List.take_add_one, htr.encReq_eq hinv after port]
  | answer pend _ _ eng => simp [issuedBy, Engine.requestsMade, pend, eng]
  | completion before _ after taken _ => simp [issuedBy, Engine.requestsMade, before, after, taken]

/-! ### A digest left alone -/

/-- A digest that follows `CMAC` under the cipher `c`, with its buffers admitted and nobody else's turn prescribed. -/
structure State.Served (c : Cipher) (s : State) : Prop where
  inv : s.Inv
  tracks : s.Tracks c.encrypt
  cipher : s.plat.adapter s.eng.ctxCap = some c
  readable : admitR s.plat s.eng.msgBase.toNat s.eng.len.toNat = true
  writable : admitW s.plat s.eng.tagBase.toNat 16 = true
  alone : s.turns = []
  conforming : s.oracle = []

theorem State.Ready.served (h : s.Ready) (hc : s.plat.adapter s.eng.ctxCap = some c) : s.Served c where
  inv := h.inv
  tracks := by
    obtain ⟨hp, pend⟩ := h.start
    refine .of_tracksAt (by simp [h.inv.encRsp_none pend]) ?_
    rw [hp]
    exact fun hpend => by simp [pend] at hpend
  cipher := hc
  readable := h.readable
  writable := h.writable
  alone := h.alone
  conforming := h.conforming

/-- What is read of an admitted range is admitted. -/
theorem admitR_sub {p : Platform} {a n b m : Nat} (h : admitR p a n = true) (hb : a ≤ b) (hm : b + m ≤ a + n) :
    admitR p b m = true := by
  rw [admitR_iff] at h ⊢
  rcases h with rfl | ⟨hspace, hbytes⟩
  · exact .inl (by omega)
  · refine .inr ⟨by omega, fun k hk => ?_⟩
    have hk' := hbytes (b + k - a) (by omega)
    rwa [show a + (b + k - a) = b + k by omega] at hk'

/-- A last chunk of the length that `COUNT` gives makes a last block (43_mac_engine.md R156, R161). -/
theorem lastBlock_of_counted {chunk : List Byte} {k1 k2 : Block} (counted : s.eng.counted)
    (hlen : chunk.length = s.eng.r.toNat) : ∃ m, lastBlock s.eng.flag chunk k1 k2 = some m := by
  obtain ⟨_, hflag, hr⟩ := counted
  rw [hr] at hlen
  unfold lastBlock
  cases hf : s.eng.flag with
  | true =>
    have := count_rem_of_complete (hflag.symm.trans hf)
    exact ⟨_, by rw [if_pos rfl, if_pos (by omega)]⟩
  | false =>
    have := count_rem_of_partial (hflag.symm.trans hf)
    exact ⟨_, by rw [if_neg Bool.false_ne_true, if_pos (by omega)]⟩

/-- `U_LAST` may read the last chunk. -/
theorem State.Served.readable_last (h : s.Served c) (hp : s.eng.phase = .last) :
    admitR s.plat (eaLast s.eng) s.eng.r.toNat = true := by
  have hlen := h.inv.documented.len_eq (by rw [hp]; rfl)
  exact admitR_sub h.readable (Nat.le_add_right _ _) (by rw [eaLast]; omega)

/-- `U_CHAIN` may read each block before the last. -/
theorem State.Served.readable_block (h : s.Served c) (hp : s.eng.phase = .chain)
    (hi : s.eng.i.toNat + 1 < s.eng.n.toNat) : admitR s.plat (eaBlock s.eng) 16 = true := by
  have hlen := h.inv.documented.len_eq (by rw [hp]; rfl)
  exact admitR_sub h.readable (Nat.le_add_right _ _) (by rw [eaBlock]; omega)

/-- With the awaited answer on the port, the micro-operation completes. -/
theorem exec_next_of_answer (h : s.Inv) (hi : phaseInstr s.eng.phase = some i) (pend : s.eng.encPend = true)
    (hr : s.encRsp = some r) : ∃ t, exec i s = .next t := by
  have hcalls := h.pend_phase pend
  have htake := takeAnswer_of hr
  cases hp : s.eng.phase <;> rw [hp] at hi hcalls <;> cases hi <;> cases hcalls
  case subkeyL => exact ⟨_, by rw [exec, execUSubkeyL, if_pos pend, htake]⟩
  case chain => exact ⟨_, by rw [exec, execUChain, if_pos pend, htake]⟩
  case final => exact ⟨_, by rw [exec, execUFinal, if_pos pend, htake]⟩

/-- With no answer awaited, the micro-operation finds all it needs. -/
theorem State.Served.exec_next_of_quiet (h : s.Served c) (hi : phaseInstr s.eng.phase = some i)
    (pend : ¬ s.eng.encPend = true) : ∃ t, exec i s = .next t := by
  cases hp : s.eng.phase <;> rw [hp] at hi <;> cases hi
  case subkeyL => exact ⟨_, by rw [exec, execUSubkeyL, if_neg pend]⟩
  case last =>
    have hn := (h.inv.documented.n_range (by rw [hp]; rfl)).1
    have hn0 : s.eng.n ≠ 0 := fun h0 => by simp [h0] at hn
    obtain ⟨m, hm⟩ := lastBlock_of_counted (k1 := s.eng.k1) (k2 := s.eng.k2) (h.inv.counted (by rw [hp]; rfl))
      (length_bytesAt (s := s) (a := eaLast s.eng) _)
    rw [exec, execULast, if_neg hn0, memRead_of (h.readable_last hp)]
    simp only [hm]
    exact ⟨_, rfl⟩
  case chain =>
    have hle := h.inv.i_range hp
    rw [exec, execUChain, if_neg pend]
    by_cases hend : s.eng.i.toNat + 1 = s.eng.n.toNat
    · exact ⟨_, if_pos hend⟩
    · have hlt : s.eng.i.toNat + 1 < s.eng.n.toNat := by omega
      exact ⟨_, by rw [if_neg hend, if_pos hlt, memRead_of (h.readable_block hp hlt)]⟩
  case final => exact ⟨_, by rw [exec, execUFinal, if_neg pend]⟩
  case write =>
    have hw : admitW s.plat (eaTag s.eng) (blockBytes s.eng.x).length = true := by
      rw [length_blockBytes]
      exact h.writable
    exact ⟨_, by rw [exec, execUWrite, memWrite_of hw]⟩
  all_goals exact ⟨_, rfl⟩

/-- The engine moves unless it waits for an answer. -/
theorem State.Served.engine_next (h : s.Served c) (hi : phaseInstr s.eng.phase = some i)
    (port : s.eng.encPend = true → s.encRsp ≠ none) : ∃ t, step s = .next t ∧ exec i s = .next t := by
  obtain ⟨t, he⟩ : ∃ t, exec i s = .next t := by
    by_cases pend : s.eng.encPend = true
    · obtain ⟨r, hr⟩ := Option.ne_none_iff_exists'.mp (port pend)
      exact exec_next_of_answer h.inv hi pend hr
    · exact h.exec_next_of_quiet hi pend
  exact ⟨t, (step_of_engine h.alone (engineCan_of_next hi he port) hi).trans he, he⟩

/-- While what a digest runs on does not change, and nobody prescribes a turn or an answer, it stays served. -/
theorem State.Served.of_inputs (h : s.Served c) (hinv : t.Inv) (htr : t.Tracks c.encrypt) (inputs : t.inputs = s.inputs)
    (turns : t.turns = s.turns) (oracle : t.oracle = s.oracle) : t.Served c := by
  obtain ⟨ops, _, _, hplat⟩ := inputs_eq_iff.mp inputs
  obtain ⟨_, hcap, _, _, hmsg, htag, hlen, _⟩ := operands_eq_iff.mp ops
  exact {
    inv := hinv
    tracks := htr
    cipher := by rw [hplat, hcap, h.cipher]
    readable := by rw [hplat, hmsg, hlen, h.readable]
    writable := by rw [hplat, htag, h.writable]
    alone := turns.trans h.alone
    conforming := oracle.trans h.conforming }

/-- An answer of the cipher keeps the registers on `CMAC`. -/
theorem State.Tracks.after_answer (htr : s.Tracks E) : (presentAnswer (E (encReg s.eng)) s).Tracks E := by
  refine .of_tracksAt (fun r hr => ?_) htr.tracksAt
  rw [presentAnswer_encRsp] at hr
  split at hr
  · exact (Option.some.inj hr).symm
  · exact htr.answer r hr

/-- The step while the answer is awaited is the adapter's. -/
theorem State.Served.step_adapter (h : s.Served c) (pend : s.eng.encPend = true) (port : s.encRsp = none) :
    ∃ t, step s = .next t ∧ t.Served c ∧ t.inputs = s.inputs ∧ Progress s t := by
  have hr : adapterAnswer s = some (c.encrypt (encReg s.eng)) := by
    rw [adapterAnswer_of_request h.conforming (h.inv.encReq_of_pend pend port), h.cipher, Option.map_some]
  have hstep := step_of_adapter h.alone (engineCan_of_waiting pend port) port hr
  have hoff : ({ s with oracle := s.oracle.tail } : State) = s := by rw [h.conforming, List.tail_nil, ← h.conforming]
  rw [hoff] at hstep
  have served := h.of_inputs h.inv.after_answer h.tracks.after_answer rfl rfl rfl
  exact ⟨_, hstep, served, rfl, .answer pend port (by simp [pend]) rfl⟩

/-- Every other step before `P_WRITE` is the engine's. -/
theorem State.Served.step_engine (h : s.Served c) (hi : phaseInstr s.eng.phase = some i) (hw : i ≠ .uWrite)
    (port : s.eng.encPend = true → s.encRsp ≠ none) :
    ∃ t, step s = .next t ∧ t.Served c ∧ t.inputs = s.inputs ∧ Progress s t := by
  obtain ⟨t, hstep, he⟩ := h.engine_next hi port
  have inputs := microOp_inputs hi hw he
  have around := (exec_frame he).1
  simp only [State.surroundings, Prod.mk.injEq] at around
  obtain ⟨_, _, oracle, _, turns, _⟩ := around
  have served : t.Served c :=
    h.of_inputs (h.inv.after_microOp hi he) (h.tracks.after_microOp h.inv hi he) inputs turns oracle
  exact ⟨t, hstep, served, inputs, microOp_progress h.inv hi he⟩

theorem phaseInstr_eq_some {p : Phase} (hw : p ≠ .write) (hidle : p ≠ .idle) :
    ∃ i, phaseInstr p = some i ∧ i ≠ .uWrite := by
  cases p <;> simp_all [phaseInstr]

theorem State.Served.step_before_write (h : s.Served c) (hw : s.eng.phase ≠ .write) (hidle : s.eng.phase ≠ .idle) :
    ∃ t, step s = .next t ∧ t.Served c ∧ t.inputs = s.inputs ∧ Progress s t := by
  by_cases hwait : s.eng.encPend = true ∧ s.encRsp = none
  · exact h.step_adapter hwait.1 hwait.2
  · obtain ⟨i, hi, hiw⟩ := phaseInstr_eq_some hw hidle
    exact h.step_engine hi hiw (not_and.mp hwait)

/-- The first `k` steps of a digest left alone, up to `P_WRITE`: it is still served, on the same inputs, and the requests
made are the first of its `N + 1`. -/
theorem State.Ready.runTrace_take (h : s.Ready) (hc : s.plat.adapter s.eng.ctxCap = some c) {k : Nat}
    (hk : k ≤ 3 * (count s.eng.len.toNat).1 + 9) :
    ∃ t, runTrace k s = some (t, (s.requests c.encrypt).take t.eng.requestsMade) ∧ t.Served c ∧ t.inputs = s.inputs ∧
      t.stepsTaken = k := by
  induction k with
  | zero =>
    obtain ⟨hp, pend⟩ := h.start
    refine ⟨s, ?_, h.served hc, rfl, ?_⟩
    · simp [runTrace, Engine.requestsMade, Engine.answersTaken, hp, pend]
    · simp [State.stepsTaken, Engine.answersTaken, Phase.stepsAlone, hp, pend]
  | succ k ih =>
    obtain ⟨t, hrun, ht, same, hsteps⟩ := ih (by omega)
    have hcases := ht.inv.stepsTaken_cases
    rw [len_of_inputs same, hsteps] at hcases
    obtain ⟨hw, hidle⟩ : t.eng.phase ≠ .write ∧ t.eng.phase ≠ .idle := by
      rcases hcases with ⟨hw, hidle, _⟩ | ⟨_, hlast⟩ | ⟨_, hlast⟩
      · exact ⟨hw, hidle⟩
      · omega
      · omega
    obtain ⟨u, hstep, hu, same', progress⟩ := ht.step_before_write hw hidle
    have inputs := same'.trans same
    have htrace := progress.take_append_issuedBy hu.inv hu.tracks
    rw [requests_of_inputs inputs] at htrace
    exact ⟨u, htrace ▸ runTrace_add hrun (runTrace_one hstep), hu, inputs, by rw [progress.stepsTaken, hsteps]⟩

/-- Left alone, a digest comes to `P_WRITE` on the inputs it was accepted with, and has then made all its requests. -/
theorem State.Ready.runTrace_to_write (h : s.Ready) (hc : s.plat.adapter s.eng.ctxCap = some c) :
    ∃ t, runTrace (3 * (count s.eng.len.toNat).1 + 9) s = some (t, s.requests c.encrypt) ∧ t.Served c ∧
      t.inputs = s.inputs ∧ t.eng.phase = .write := by
  obtain ⟨t, hrun, ht, inputs, hsteps⟩ := h.runTrace_take hc le_rfl
  have hlen := len_of_inputs inputs
  have hw : t.eng.phase = .write := by
    rcases ht.inv.stepsTaken_cases with ⟨_, _, hlt⟩ | ⟨hw, _⟩ | ⟨_, hlast⟩
    · rw [hlen] at hlt
      omega
    · exact hw
    · rw [hlen] at hlast
      omega
  have hmade : (s.requests c.encrypt).length ≤ t.eng.requestsMade := by
    simp only [State.requests, length_digestRequests, Engine.requestsMade, Engine.answersTaken, hw, hlen]
    omega
  rw [List.take_of_length_le hmade] at hrun
  exact ⟨t, hrun, ht, inputs, hw⟩

/-- The last step of a digest left alone is `U_WRITE`, with nothing in flight. -/
theorem State.Served.step_write (h : s.Served c) (hw : s.eng.phase = .write) :
    ∃ t, step s = .next t ∧ exec .uWrite s = .next t ∧ issuedBy s t = [] := by
  have pend : s.eng.encPend = false := h.inv.encPend_false (by rw [hw]; rfl)
  obtain ⟨t, hstep, he⟩ := h.engine_next (i := .uWrite) (by rw [hw]; rfl) (by simp [pend])
  obtain ⟨_, rfl⟩ := execUWrite_next he
  exact ⟨_, hstep, he, by simp [issuedBy, pend]⟩

/-- Settles O59: the requests are all made on the way to `P_WRITE`, and `U_WRITE` makes none. -/
theorem anAcceptedDigestMakesItsRequestsInOrder : Obligations.AnAcceptedDigestMakesItsRequestsInOrder := by
  intro s c h hc
  obtain ⟨u, hrun, hu, _, hw⟩ := h.runTrace_to_write hc
  obtain ⟨t, hstep, he, hissued⟩ := hu.step_write hw
  have hdone : t.eng.status = .done := by
    obtain ⟨_, rfl⟩ := execUWrite_next he
    rfl
  refine ⟨t, hdone, ?_⟩
  have htrace := runTrace_add hrun (runTrace_one hstep)
  rw [hissued, List.append_nil] at htrace
  have hk : 2 * (count s.eng.len.toNat).1 + 9 + ((count s.eng.len.toNat).1 + 1) =
      3 * (count s.eng.len.toNat).1 + 9 + 1 := by omega
  rw [hk]
  exact htrace

end Sys2Proof.Machine

/-! Doubling (41_subkey_generator.md): `DBL` as a shift of 128 bits and a reduction, what it does to each byte, and that
bit 0 of its result tells which block was doubled. -/

namespace Sys2Proof.Machine

/-! ### Bits of a byte -/

theorem getLsbD_blockByte (b : Block) (i : Nat) {j : Nat} (hj : j < 8) :
    (blockByte b i).getLsbD j = b.getLsbD (120 - 8 * i + j) := by
  simp [blockByte, hj]

/-- Bit 7 of byte 0 is the top bit of the block. -/
theorem msb_blockByte_zero (b : Block) : (blockByte b 0).msb = b.msb := by
  rw [BitVec.msb_eq_getLsbD_last, BitVec.msb_eq_getLsbD_last, getLsbD_blockByte b 0 (by decide)]

theorem getLsbD_ite_one_zero (c : Prop) [Decidable c] (j : Nat) :
    (if c then 1 else 0 : Byte).getLsbD j = (decide (j = 0) && decide c) := by
  by_cases hc : c <;> simp [hc, BitVec.getLsbD_one]

/-! ### What the shift, the XOR and the reduction do to a byte -/

/-- A byte of the shifted block takes its bit 0 from bit 7 of the next byte; after byte 15 there is none. -/
theorem blockByte_shiftLeft_one (a : Block) {i : Nat} (hi : i < 16) :
    blockByte (a <<< 1) i =
      (blockByte a i <<< 1) ||| (if i < 15 ∧ (blockByte a (i + 1)).getLsbD 7 then 1 else 0) := by
  rw [getLsbD_blockByte a (i + 1) (by decide)]
  apply BitVec.eq_of_getLsbD_eq
  intro j hj
  rw [getLsbD_blockByte _ i hj, BitVec.getLsbD_or, getLsbD_ite_one_zero, BitVec.getLsbD_shiftLeft,
    BitVec.getLsbD_shiftLeft]
  cases j with
  | zero =>
    by_cases hlast : i < 15
    · have hnext : 120 - 8 * i - 1 = 120 - 8 * (i + 1) + 7 := by omega
      have hin : 120 - 8 * i < 128 ∧ 120 - 8 * i ≠ 0 := by omega
      simp [hnext, hin, hlast]
    · have hi15 : i = 15 := by omega
      simp [hi15]
  | succ j =>
    have hown : 120 - 8 * i + (j + 1) - 1 = 120 - 8 * i + j := by omega
    have hin : 120 - 8 * i + (j + 1) < 128 := by omega
    simp [hown, hin, hj, getLsbD_blockByte a i (show j < 8 by omega)]

theorem blockByte_xor (a b : Block) (i : Nat) : blockByte (a ^^^ b) i = blockByte a i ^^^ blockByte b i :=
  BitVec.extractLsb'_xor

/-- What `DBL` brings back for the bit that left the block. -/
def reduction (a : Block) : Block := if a.msb then 0x87 else 0

/-- The reduction changes byte 15 alone. -/
theorem blockByte_reduction (a : Block) {i : Nat} (hi : i < 16) :
    blockByte (reduction a) i = if i = 15 ∧ a.msb then 0x87 else 0 := by
  have hbyte : ∀ k < 16, blockByte 0x87 k = if k = 15 then 0x87 else 0 := by decide
  have hzero : ∀ k < 16, blockByte 0 k = 0 := by decide
  unfold reduction
  cases a.msb with
  | false => simpa using hzero i hi
  | true => simpa using hbyte i hi

/-! ### `DBL` -/

/-- `DBL` is the 128-bit shift, then the reduction. -/
theorem dbl_eq (a : Block) : dbl a = (a <<< 1) ^^^ reduction a := by
  rw [dbl, msb_blockByte_zero, blockShl1_eq, reduction]
  cases a.msb <;> simp

/-- Settles O10: the shift and the reduction, each on its own byte. -/
theorem doublingShiftsAndReduces : Obligations.DoublingShiftsAndReduces := by
  intro a i hi
  have htop : (blockByte a 0).getLsbD 7 = a.msb := by
    rw [← msb_blockByte_zero, BitVec.msb_eq_getLsbD_last]
  rw [dbl_eq, blockByte_xor, blockByte_shiftLeft_one a hi, blockByte_reduction a hi, htop]

/-- The shift clears bit 0, so bit 0 of the result is the bit that was tested. -/
theorem getLsbD_zero_dbl (a : Block) : (dbl a).getLsbD 0 = a.msb := by
  rw [dbl_eq, reduction]
  cases a.msb <;> simp

/-- The shift loses the top bit only. -/
theorem eq_of_shiftLeft_one_eq {a b : Block} (hshift : a <<< 1 = b <<< 1) (htop : a.msb = b.msb) : a = b := by
  apply BitVec.eq_of_getLsbD_eq
  intro j hj
  by_cases hlast : j = 127
  · subst hlast
    exact htop
  · have hbit := congrArg (BitVec.getLsbD · (j + 1)) hshift
    have hin : j + 1 < 128 := by omega
    simpa [hin, BitVec.getLsbD_eq_getElem hj] using hbit

/-- Settles O11: bit 0 of the result tells the reduction, and then the shift can be undone. -/
theorem doublingIsOneToOne : Obligations.DoublingIsOneToOne := by
  intro a b h
  have htop : a.msb = b.msb := by rw [← getLsbD_zero_dbl a, ← getLsbD_zero_dbl b, h]
  have hreduction : reduction a = reduction b := by rw [reduction, reduction, htop]
  rw [dbl_eq, dbl_eq, hreduction, BitVec.xor_left_inj] at h
  exact eq_of_shiftLeft_one_eq h htop

end Sys2Proof.Machine

/-! Shift and XOR of buffers (42_shift_and_xor.md): what `SHL1` and `XOR` put at each index of a buffer of any length, and
that the loop of R137 computes `SHL1`. -/

namespace Sys2Proof.Machine

/-! ### The shift, byte by byte -/

/-- The carry out of a buffer is bit 7 of its byte 0; the empty buffer has none. -/
theorem carryIn_eq (A : List Byte) : carryIn A = if ((A[0]?).getD 0).getLsbD 7 then 1 else 0 := by
  cases A with
  | nil => rfl
  | cons b rest => rfl

/-- Each byte is shifted by itself and takes in the carry of what follows it. -/
theorem getElem?_shl1 (A : List Byte) {i : Nat} (h : i < A.length) :
    (shl1 A)[i]? = some (A[i] <<< 1 ||| carryIn (A.drop (i + 1))) := by
  induction A generalizing i with
  | nil => cases h
  | cons b rest ih =>
    cases i with
    | zero => rfl
    | succ i => exact ih (Nat.lt_of_succ_lt_succ h)

/-- Settles O7: the carry into byte `i` is bit 7 of the byte after it, and the mask keeps all of a byte. -/
theorem shiftLeftDoublesABigEndianBuffer : Obligations.ShiftLeftDoublesABigEndianBuffer := by
  refine fun A => ⟨length_shl1 A, fun i h => ?_, bufNat_shl1 A⟩
  have hmask : A[i] <<< 1 &&& (0xFF : Byte) = A[i] <<< 1 := BitVec.and_allOnes
  rw [getElem?_shl1 A h, carryIn_eq, List.getElem?_drop, hmask, Nat.add_zero]

/-! ### The loop -/

/-- The loop of R137 leaves the carry out of the buffer beside the bytes of `SHL1`. -/
theorem shl1Loop_eq (A : List Byte) : shl1Loop A = (carryIn A, shl1 A) := by
  induction A with
  | nil => rfl
  | cons b rest ih => rw [shl1Loop, ih, carryIn, shl1]

/-- Settles O8: both parts of the loop's result, the carry read at byte 0. -/
theorem shiftLoopComputesTheShift : Obligations.ShiftLoopComputesTheShift := by
  intro A
  rw [shl1Loop_eq]
  exact ⟨rfl, carryIn_eq A⟩

/-! ### The XOR -/

theorem length_xorBuf {A B : List Byte} (h : A.length = B.length) : (xorBuf A B).length = A.length := by
  rw [xorBuf, List.length_zipWith, h, Nat.min_self]

theorem getElem?_xorBuf {A B : List Byte} {i : Nat} (hA : i < A.length) (hB : i < B.length) :
    (xorBuf A B)[i]? = some (A[i] ^^^ B[i]) := by
  rw [xorBuf, List.getElem?_zipWith, List.getElem?_eq_getElem hA, List.getElem?_eq_getElem hB]

/-- The XOR of two blocks is the buffer XOR of their bytes. -/
theorem blockBytes_xor (a b : Block) : blockBytes (a ^^^ b) = xorBuf (blockBytes a) (blockBytes b) := by
  rw [xorBuf, blockBytes, blockBytes, blockBytes, List.zipWith_map, List.zipWith_self]
  exact List.map_congr_left fun i _ => blockByte_xor a b i

/-- Settles O12, on buffers and on blocks. -/
theorem xorActsOnEachByteAlone : Obligations.XorActsOnEachByteAlone :=
  ⟨fun _ _ hlen => ⟨length_xorBuf hlen, fun _ => getElem?_xorBuf⟩, blockBytes_xor⟩

end Sys2Proof.Machine

/-! The MAC engine (43_mac_engine.md): that every agent's step keeps a digest on `CMAC`, what a digest leaves when it
ends, and what each micro-operation does. -/

namespace Sys2Proof.Machine

variable {s t : State} {i : Instr} {r : Block} {E : Block → Block} {x y : Word}

/-! ### What keeps the registers on `CMAC` -/

/-- At rest, and from the acceptance to the first request, `CMAC` fixes no register. -/
theorem State.Inv.follows_of_start (h : s.Inv) (pend : s.eng.encPend = false)
    (hp : s.eng.phase = .idle ∨ s.eng.phase = .subkeyL) : s.Follows := by
  refine fun c _ => .of_tracksAt (by simp [h.encRsp_none pend]) ?_
  rcases hp with hp | hp <;> rw [hp]
  · trivial
  · exact fun hpend => by simp [pend] at hpend

theorem State.Inv.follows_of_idle (h : s.Inv) (hp : s.eng.phase = .idle) : s.Follows :=
  h.follows_of_start (h.encPend_false (by rw [hp]; rfl)) (.inl hp)

/-- The two address registers the host may write, and bytes outside the message, have no part in a digest that runs. -/
theorem State.Tracks.of_message (htr : s.Tracks E) (h : s.Inv)
    (eng : t.eng = { s.eng with msgAddr := x, tagAddr := y }) (rsp : t.encRsp = s.encRsp)
    (msg : ∀ k, k < s.eng.len.toNat → t.message k = s.message k) : t.Tracks E := by
  have hat := htr.tracksAt
  have last := finishedLast_congr (E := E) msg
  have hlen (hc : s.eng.phase.afterCount = true) := h.documented.len_eq hc
  have chain {j : Nat} (hj : 16 * j ≤ s.eng.len.toNat) : chainValue E t.message j = chainValue E s.message j :=
    chainValue_congr fun k hk => msg k (by omega)
  have block {j : Nat} (hj : 16 * j + 16 ≤ s.eng.len.toNat) : messageBlock t.message j = messageBlock s.message j :=
    messageBlock_congr fun k hk => msg _ (by omega)
  refine .of_tracksAt (by rw [rsp, eng]; exact htr.answer) ?_
  rw [eng]
  cases hp : s.eng.phase <;> rw [hp] at hat hlen <;> simp only [State.TracksAt, eng] at hat ⊢
  case init => rw [last, hat]
  case chain =>
    have hi := h.i_range hp
    have hlen := hlen rfl
    obtain ⟨hlast, quiet, sent⟩ := hat
    rw [last, chain (by omega)]
    refine ⟨hlast, quiet, fun pend => ?_⟩
    have hlt := h.i_pend hp pend
    rw [block (by omega), sent pend]
  case final =>
    have hlen := hlen rfl
    rw [last, chain (by omega)]
    exact hat
  case write => rw [hat, cmac_congr msg]
  all_goals exact hat

theorem State.Follows.of_message (hf : s.Follows) (h : s.Inv) (plat : t.plat = s.plat)
    (eng : t.eng = { s.eng with msgAddr := x, tagAddr := y }) (rsp : t.encRsp = s.encRsp)
    (msg : ∀ k, k < s.eng.len.toNat → t.message k = s.message k) : t.Follows := by
  intro c hc
  rw [plat, eng] at hc
  exact (hf c hc).of_message h eng rsp msg

/-- A step that leaves the engine, its ports and memory alone. -/
theorem State.Follows.of_same (hf : s.Follows) (h : s.Inv) (plat : t.plat = s.plat) (eng : t.eng = s.eng)
    (rsp : t.encRsp = s.encRsp) (hmem : t.mem = s.mem) (htorn : t.torn = s.torn) : t.Follows :=
  hf.of_message (x := s.eng.msgAddr) (y := s.eng.tagAddr) h plat eng rsp fun k _ => by
    rw [State.message, State.message, eng, State.byteAt_congr hmem htorn]

/-! ### Each agent's move keeps the digest on `CMAC` -/

/-- The engine's move. -/
theorem State.Follows.after_microOp (hf : s.Follows) (h : s.Inv) (hi : phaseInstr s.eng.phase = some i)
    (he : exec i s = .next t) : t.Follows := by
  obtain ⟨-, hcap, -⟩ := operands_eq_iff.mp (microOp_operands hi he)
  have around := (exec_frame he).1
  simp only [State.surroundings, Prod.mk.injEq] at around
  intro c hc
  rw [around.1, hcap] at hc
  exact (hf c hc).after_microOp h hi he

/-- The adapter's move, with the answers left to the cipher: an awaited answer is the cipher's own, any other is
dropped. -/
theorem State.Follows.after_answer (hf : s.Follows) (h : s.Inv) (ho : s.oracle = []) (port : s.encRsp = none)
    (hr : adapterAnswer s = some r) : (presentAnswer r s).Follows := by
  cases pend : s.eng.encPend with
  | false => exact hf.of_same h rfl rfl (by simp [pend]) rfl rfl
  | true =>
    intro c (hc : s.plat.adapter s.eng.ctxCap = some c)
    rw [adapterAnswer_of_request ho (h.encReq_of_pend pend port), hc] at hr
    exact Option.some.inj hr ▸ (hf c hc).after_answer

/-- A command: it is held while a digest runs, and leaves an engine at rest or at the start of a digest. -/
theorem State.Follows.after_command (hf : s.Follows) (h : s.Inv) (hc : CommandEffect s t) : t.Follows := by
  have ht := h.after_command hc
  cases hc with
  | held _ e => exact e ▸ hf
  | setup hb cap e => exact ht.follows_of_idle (by simp [e, h.phase_idle hb])
  | error hb c _ e => exact ht.follows_of_idle (by simp [e, h.phase_idle hb])
  | digest hb len _ _ _ _ e =>
    have pend : s.eng.encPend = false := h.encPend_false (by rw [h.phase_idle hb]; rfl)
    exact ht.follows_of_start (by simp [e, pend]) (.inr (by simp [e]))

/-- A host store: the host's duty keeps it off the message of a digest that runs. -/
theorem State.Follows.after_store {a : Nat} {b : Byte} (hf : s.Follows) (h : s.Inv) (ht : (putBytes a [b] s).Inv)
    (free : isBusy s.eng = true → isMessageByte s.eng a = false) : (putBytes a [b] s).Follows := by
  cases hb : isBusy s.eng with
  | false => exact ht.follows_of_idle (h.phase_idle hb)
  | true =>
    have hout := free hb
    simp only [isMessageByte, Bool.and_eq_false_iff, decide_eq_false_iff_not] at hout
    refine hf.of_message (x := s.eng.msgAddr) (y := s.eng.tagAddr) h rfl rfl rfl fun k hk => ?_
    exact byteAt_putBytes_singleton_other h.mem_wf (show s.eng.msgBase.toNat + k ≠ a by omega)

/-- A host action. -/
theorem State.Follows.after_hostEffect {a : HostAction} (hf : s.Follows) (h : s.Inv) (he : HostEffect a s t) :
    t.Follows := by
  have ht := h.after_hostEffect he
  cases he with
  | wr idx d _ hw =>
    rcases execWr_next hw with ⟨_, hc⟩ | ⟨_, rfl⟩ | ⟨_, rfl⟩ | ⟨_, rfl⟩
    · exact hf.after_command h hc
    · exact hf.of_message h rfl rfl rfl fun _ _ => rfl
    · exact hf.of_message h rfl rfl rfl fun _ _ => rfl
    · exact hf
  | rd idx hr =>
    obtain ⟨opened, rfl, _⟩ := execRd_next hr
    exact hf.of_same h rfl rfl rfl rfl rfl
  | look e =>
    rw [e, observe_eq]
    exact hf.of_same h rfl rfl rfl rfl rfl
  | reset e => exact ht.follows_of_idle (by simp [e])
  | store a b _ _ free _ e =>
    subst e
    exact hf.after_store h ht fun hb => (free hb).1
  | load b n e => exact e ▸ hf.of_same h rfl rfl rfl rfl rfl

/-- Settles O56: the turn is taken off the list, and each agent's move keeps the digest on `CMAC`. -/
theorem everyStepFollowsCmac : Obligations.EveryStepFollowsCmac := by
  intro s t hinv ⟨ho, hacts⟩ hfollows hstep
  have ht := everyStepKeepsTheInvariant s t hinv hstep
  obtain ⟨turns, hmove⟩ := step_next hstep
  have h : State.Inv { s with turns := turns } := { hinv with }
  have hf : State.Follows { s with turns := turns } := hfollows.of_same hinv rfl rfl rfl rfl rfl
  cases hmove with
  | pass e => exact e ▸ hf
  | engine i hi _ he => exact hf.after_microOp h hi he
  | adapter r hr port e =>
    have hf' := hf.after_answer h ho port hr
    exact e ▸ hf'.of_same h.after_answer rfl rfl rfl rfl rfl
  | host a rest _ _ he =>
    have hrun : State.Inv { s with turns := turns, host := hostRest s.eng a rest } := { hinv with }
    have hfrun : State.Follows { s with turns := turns, host := hostRest s.eng a rest } :=
      hfollows.of_same hinv rfl rfl rfl rfl rfl
    exact hfrun.after_hostEffect hrun he
  | platform a rest hp _ => simp [hacts] at hp
  | reset e => exact ht.follows_of_idle (by rw [e]; rfl)

/-! ### The end of a digest -/

theorem bytesAt_eq_blockBytes_iff {a : Nat} {b : Block} :
    s.bytesAt a 16 = blockBytes b ↔ ∀ k, k < 16 → s.byteAt (a + k) = blockByte b k := by
  simp [State.bytesAt, blockBytes]

/-- What `U_WRITE` leaves: `X` in the tag buffer, every other byte, and an engine at rest. -/
theorem uWrite_effect (hwf : s.mem.wf) (he : exec .uWrite s = .next t) :
    t.eng = { s.eng with status := .done, phase := .idle } ∧ t.mem.wf ∧
    t.bytesAt s.eng.tagBase.toNat 16 = blockBytes s.eng.x ∧
    ∀ a, a < s.eng.tagBase.toNat ∨ s.eng.tagBase.toNat + 16 ≤ a → t.byteAt a = s.byteAt a := by
  obtain ⟨_, ht⟩ := execUWrite_next he
  have hmem : t.mem = (putBytes s.eng.tagBase.toNat (blockBytes s.eng.x) s).mem := by rw [ht, eaTag]
  have hbyte (a : Nat) : t.byteAt a = (putBytes s.eng.tagBase.toNat (blockBytes s.eng.x) s).byteAt a :=
    State.byteAt_congr hmem (by rw [ht, eaTag]) a
  have wf := wf_putBytes (a := s.eng.tagBase.toNat) (bs := blockBytes s.eng.x) hwf
  have tag := bytesAt_putBytes (a := s.eng.tagBase.toNat) (bs := blockBytes s.eng.x) hwf
  rw [length_blockBytes] at tag
  refine ⟨by rw [ht], by rwa [hmem], (bytesAt_congr fun k _ => hbyte _).trans tag, fun a ha => ?_⟩
  rw [hbyte, byteAt_putBytes_outside hwf (by rwa [length_blockBytes])]

/-- Only `U_WRITE` ends a digest. -/
theorem microOp_status {p : Phase} (hi : phaseInstr p = some i) (hw : i ≠ .uWrite) (h : exec i s = .next t) :
    t.eng.status = s.eng.status := by
  cases p <;> cases hi
  case subkeyL => rcases execUSubkeyL_next h with ⟨_, rfl⟩ | ⟨_, r, _, rfl⟩ <;> simp
  case last => obtain ⟨_, _, m, _, rfl⟩ := execULast_next h; rfl
  case chain => rcases execUChain_next h with ⟨_, r, _, rfl⟩ | ⟨_, _, rfl⟩ | ⟨_, _, _, rfl⟩ <;> simp
  case final => rcases execUFinal_next h with ⟨_, rfl⟩ | ⟨_, r, _, rfl⟩ <;> simp
  case write => exact absurd rfl hw
  all_goals cases h; rfl

/-- Settles O57: the step is `U_WRITE`, and in `P_WRITE` the register `X` holds the tag. -/
theorem aFinishedDigestWroteCmac : Obligations.AFinishedDigestWroteCmac := by
  intro s t c h hf hc hstep hb hdone
  have herr := h.err_none (by simp [hb])
  cases busy_step hb hstep with
  | engine turns i hi _ he =>
    obtain rfl : i = .uWrite := by
      by_contra hw
      have hstatus := microOp_status hi hw he
      simp [hdone, hb] at hstatus
    obtain ⟨eng, _, tag, outside⟩ := uWrite_effect (s := { s with turns := turns }) h.mem_wf he
    rw [← (hf c hc).tag (phase_of_uWrite hi), eng]
    exact ⟨tag, outside, rfl, rfl, rfl, rfl, herr⟩
  | others a b e => simp [e, hb] at hdone
  | reset p k e => simp [e, resetEngine] at hdone

/-- Settles O58: the run comes to `P_WRITE` on the inputs it started with, and `U_WRITE` ends it. -/
theorem anAcceptedDigestEndsWithItsTag : Obligations.AnAcceptedDigestEndsWithItsTag := by
  intro s c h hc
  obtain ⟨u, hrun, hu, same, hw⟩ := h.runTrace_to_write hc
  obtain ⟨t, hstep, he, _⟩ := hu.step_write hw
  obtain ⟨eng, _, tag, outside⟩ := uWrite_effect hu.inv.mem_wf he
  obtain ⟨ops, hmem, htorn, _⟩ := inputs_eq_iff.mp same
  obtain ⟨hvalid, hcap, hmsg, htag, _, hbase, hlen, _⟩ := operands_eq_iff.mp ops
  have herr := hu.inv.err_none (by simp [hu.inv.busy_iff.mpr (by simp [hw])])
  have hrun' := run_of_runTrace (runTrace_add hrun (runTrace_one hstep))
  rw [show 3 * (count s.eng.len.toNat).1 + 9 + 1 =
    2 * (count s.eng.len.toNat).1 + 9 + ((count s.eng.len.toNat).1 + 1) by omega] at hrun'
  rw [hu.tracks.tag hw, message_of_inputs same, hbase, hlen] at tag
  rw [hbase] at outside
  refine ⟨t, hrun', ?_⟩
  rw [eng]
  exact ⟨rfl, herr, hvalid, hcap, hmsg, htag, tag,
    fun a ha => (outside a ha).trans (State.byteAt_congr hmem htorn a)⟩

/-- An admitted `U_WRITE` completes, and changes the engine and memory only. -/
theorem uWrite_completes (hw : admitW s.plat s.eng.tagBase.toNat 16 = true) :
    ∃ t, exec .uWrite s = .next t ∧
      t = { s with eng := { s.eng with status := .done, phase := .idle }, mem := t.mem, torn := t.torn } := by
  rw [← length_blockBytes s.eng.x] at hw
  refine ⟨_, by rw [exec, execUWrite, eaTag, memWrite_of hw], ?_⟩
  simp only [putBytes]

/-- Settles O34: an admitted `U_WRITE` completes, and its effect is the tag. -/
theorem writeStoresTheTagAndNothingElse : Obligations.WriteStoresTheTagAndNothingElse := by
  intro s hwf hw
  obtain ⟨t, he, frame⟩ := uWrite_completes hw
  obtain ⟨_, wf, tag, outside⟩ := uWrite_effect hwf he
  exact ⟨t, he, frame, wf, bytesAt_eq_blockBytes_iff.mp tag, outside⟩

/-! ### `PAD` and `COUNT` -/

theorem blockByte_ofBytes {A : List Byte} (h : A.length = 16) {j : Nat} (hj : j < A.length) :
    blockByte (ofBytes A) j = A[j] := by
  have hget := List.getElem_of_eq (blockBytes_ofBytes h).symm hj
  simpa [blockBytes] using hget.symm

/-- Settles O13: the mark stands after the chunk, and zeros after the mark. -/
theorem paddingPlacesOneMarkAndZeros : Obligations.PaddingPlacesOneMarkAndZeros := by
  intro chunk hlen j hj
  have hpad : (chunk ++ 0x80 :: List.replicate (15 - chunk.length) (0 : Byte)).length = 16 := by
    simp
    omega
  rw [pad, blockByte_ofBytes hpad (by omega), List.getElem_append]
  split
  · rfl
  · rw [List.getElem_cons]
    by_cases hmark : j = chunk.length
    · simp [hmark]
    · have hafter : j - chunk.length ≠ 0 := by omega
      simp [hmark, hafter]

/-- Settles O14: the branches of `COUNT`, and the bounds for a length of 16 bits. -/
theorem countGivesBlocksFlagAndRest : Obligations.CountGivesBlocksFlagAndRest := by
  refine ⟨rfl, fun len _ h0 h16 => ?_, fun len _ h16 => ?_, fun len hlen => ?_⟩
  · rw [count, if_neg h0, if_pos h16]
  · have h0 : len ≠ 0 := fun h => h16 (by rw [h])
    rw [count, if_neg h0, if_neg h16]
  · have hle := count_blocks_le (Nat.lt_succ_of_le hlen)
    exact ⟨count_blocks_pos len, hle, by omega, (count_splits len).symm⟩

/-! ### The micro-operations -/

/-- Settles O27: `ENC_DST` names `L` when the answer is taken. -/
theorem subkeyLSendsTheZeroBlock : Obligations.SubkeyLSendsTheZeroBlock := by
  refine fun s => ⟨fun pend => ?_, fun r pend dst rsp => ?_⟩
  · simp [exec, execUSubkeyL, pend, issue, encReg, zero16]
  · simp [exec, execUSubkeyL, pend, takeAnswer_of rsp, setEncReg_l_of _ _ dst]

/-- Settles O28: the examples by `DBL` as a shift and a reduction. -/
theorem subkeysAreDoublings : Obligations.SubkeysAreDoublings :=
  ⟨fun _ => rfl, fun _ => rfl, by rw [dbl_eq]; decide, by rw [dbl_eq]; decide⟩

/-- Settles O29: `COUNT`'s values fit the widths of `N` and `R`. -/
theorem countFillsNFlagAndR : Obligations.CountFillsNFlagAndR := by
  intro s
  obtain ⟨hn, hflag, hr⟩ := counted_of_count s.eng .last
  exact ⟨_, rfl, rfl, Prod.ext hn (Prod.ext hflag hr)⟩

/-- `U_LAST` with its chunk admitted stores the last block. -/
theorem exec_uLast {m : Block} (hn : s.eng.n ≠ 0) (hr : admitR s.plat (eaLast s.eng) s.eng.r.toNat = true)
    (hm : lastBlock s.eng.flag (s.bytesAt (eaLast s.eng) s.eng.r.toNat) s.eng.k1 s.eng.k2 = some m) :
    exec .uLast s = .next { s with eng := { s.eng with mlast := m, phase := .init } } := by
  rw [exec, execULast, if_neg hn, memRead_of hr]
  simp only [hm]

/-- Settles O30: the chunk has the length that its subkey asks for. -/
theorem lastBlockTakesTheRightSubkey : Obligations.LastBlockTakesTheRightSubkey := by
  refine fun s hn hr => ⟨fun hflag h16 => exec_uLast hn hr ?_, fun hflag h15 => exec_uLast hn hr ?_⟩
  · simp [lastBlock, hflag, h16, eaLast]
  · simp [lastBlock, hflag, h15, eaLast]

/-- Settles O31: `U_INIT` writes them in every state. -/
theorem initClearsTheAccumulator : Obligations.InitClearsTheAccumulator := fun _ => rfl

/-- Settles O32: the exit step, step a on the block that `I` names, and step b. -/
theorem chainTakesBlocksInOrder : Obligations.ChainTakesBlocksInOrder := by
  refine fun s => ⟨fun pend hend => ?_, fun pend hlt hr => ?_, fun r pend dst rsp => ?_⟩
  · simp [exec, execUChain, pend, hend]
  · simp [exec, execUChain, pend, hlt, hlt.ne, eaBlock, memRead_of (s := s) hr, issue, encReg]
  · simp [exec, execUChain, pend, takeAnswer_of rsp, setEncReg_x_of _ _ dst]

/-- Settles O33: `ENC_DST` names `X` when the answer is taken. -/
theorem finalSendsTheLastBlock : Obligations.FinalSendsTheLastBlock := by
  refine fun s => ⟨fun pend => ?_, fun r pend dst rsp => ?_⟩
  · simp [exec, execUFinal, pend, issue, encReg]
  · simp [exec, execUFinal, pend, takeAnswer_of rsp, setEncReg_x_of _ _ dst]

end Sys2Proof.Machine

/-! The host port and the two commands (44_host_commands.md): what a read returns and a write sets, when a command is held
and what it does when accepted, which step changes `STATE`, and that a tag depends on the message and the cipher alone. -/

namespace Sys2Proof.Machine

variable {s t : State} {i : Instr} {w : Word} {len : BitVec 16}

/-! ### What a read returns -/

/-- The fields of a word as digits of its number. -/
theorem toNat_append_eq_add {m n : Nat} (x : BitVec m) (y : BitVec n) :
    (x ++ y).toNat = x.toNat * 2 ^ n + y.toNat := by
  rw [BitVec.toNat_append, ← Nat.shiftLeft_add_eq_or_of_lt y.isLt, Nat.shiftLeft_eq]

/-- The word of `STATUS` as a number (10_state.md R25). -/
theorem toNat_statusWord (e : Engine) : (statusWord e).toNat =
    (errCode e.err).toNat * 256 + (phaseCode e.phase).toNat * 16 + (statusCode e.status).toNat := by
  simp only [statusWord, toNat_append_eq_add, BitVec.toNat_ofNat, Nat.zero_mod]
  omega

/-- The word of `CTX` as a number (10_state.md R22). -/
theorem toNat_ctxWord (e : Engine) :
    (ctxWord e).toNat = (if e.ctxValid then 2 ^ 31 else 0) + e.ctxCap.toNat := by
  simp only [ctxWord, toNat_append_eq_add, BitVec.toNat_ofBool, BitVec.toNat_ofNat, Nat.zero_mod]
  cases e.ctxValid <;> rfl

/-- `CMD` and an index that names no register read as 0. -/
theorem readReg_unnamed {idx : BitVec 3} (e : Engine) (h : idx = 0 ∨ 5 ≤ idx.toNat) : readReg e idx = 0 := by
  have hne : idx ≠ 1 ∧ idx ≠ 2 ∧ idx ≠ 3 ∧ idx ≠ 4 := by
    revert idx
    decide
  simp only [readReg, hne, if_false]

/-- Settles O18: the data is the register's word, and only a read of `DONE` touches the list of tag bytes. -/
theorem readsReturnTheRegisterAndChangeNothing : Obligations.ReadsReturnTheRegisterAndChangeNothing := by
  intro s idx
  refine ⟨_, execRd_eq idx s, rfl, fun h1 hdone => if_pos ⟨h1, hdone⟩, fun h => if_neg (not_and_or.mpr h), ?_⟩
  refine ⟨?_, ?_, ?_, ?_, readReg_unnamed s.eng⟩
  · rintro rfl
    exact toNat_statusWord s.eng
  · rintro rfl
    rfl
  · rintro rfl
    rfl
  · rintro rfl
    exact toNat_ctxWord s.eng

/-! ### What a write sets -/

theorem toNat_truncAddr (p : Platform) (w : Word) : (truncAddr p w).toNat = w.toNat % 2 ^ p.addrW := by
  rw [truncAddr, BitVec.toNat_ofNat, Nat.mod_eq_of_lt (lt_of_le_of_lt (Nat.mod_le _ _) w.isLt)]

/-- A write to a read-only register, or to an index that names none, is ignored (10_state.md R23). -/
theorem execWr_ignored {idx : BitVec 3} (h : idx = 1 ∨ 4 ≤ idx.toNat) : execWr idx w s = .next s := by
  have hne : idx ≠ 0 ∧ idx ≠ 2 ∧ idx ≠ 3 := by
    revert idx
    decide
  simp only [execWr, hne, if_false]

/-- Settles O19. -/
theorem hostWritesSetAnAddressOrAreIgnored : Obligations.HostWritesSetAnAddressOrAreIgnored := fun s d =>
  ⟨⟨_, rfl, rfl, toNat_truncAddr s.plat d⟩, ⟨_, rfl, rfl, toNat_truncAddr s.plat d⟩, fun _ => execWr_ignored⟩

/-! ### Commands held and accepted -/

theorem isBusy_eq_false_iff {e : Engine} : isBusy e = false ↔ e.status ≠ .busy := by
  rw [← Bool.not_eq_true, ne_eq, isBusy_iff]

/-- The turn of an agent that cannot move passes. -/
theorem takeTurn_of_not_canMove {g : Agent} (h : canMove g s = false) : takeTurn g s = .next s := by
  rw [takeTurn, h]
  rfl

/-- Settles O20: each command checks for `BUSY` first, and a held write keeps the host from moving. -/
theorem commandsAreHeldWhileBusy : Obligations.CommandsAreHeldWhileBusy := by
  intro s hb
  have hbusy := isBusy_iff.mpr hb
  refine ⟨fun w => ?_, fun c => if_pos hbusy, fun n => if_pos hbusy, fun w rest turns hh ht => ?_⟩
  · rw [exec, execWr, if_pos rfl, if_pos hbusy]
  · rw [step_eq_takeTurn ht]
    exact takeTurn_of_not_canMove (by simp [canMove, hostCan, hh, isHeld, hbusy])

/-- A write to `CMD` that is not held is accepted. -/
theorem execWr_accepted (hb : isBusy s.eng = false) : execWr 0 w s = acceptWord w s := by
  simp only [execWr, hb, if_true, Bool.false_eq_true, if_false]

/-- A word that decodes is a `SETUP` or a `DIGEST` (30_encoding.md R94). -/
theorem decodeCommand_ok (h : decodeCommand w = .ok i) : (∃ c, i = .setup c) ∨ ∃ n, i = .digest n := by
  unfold decodeCommand at h
  split_ifs at h
  · exact .inl ⟨_, (Except.ok.inj h).symm⟩
  · exact .inr ⟨_, (Except.ok.inj h).symm⟩

/-- An accepted word is performed as the instruction it decodes to (44_host_commands.md R194). -/
theorem execWr_decoded (hb : isBusy s.eng = false) (h : decodeCommand w = .ok i) : execWr 0 w s = exec i s := by
  rw [execWr_accepted hb, acceptWord, h]
  rcases decodeCommand_ok h with ⟨c, rfl⟩ | ⟨n, rfl⟩ <;> rfl

/-- Settles O21. -/
theorem acceptedWordsRunAsTheirCommand : Obligations.AcceptedWordsRunAsTheirCommand :=
  fun _ _ _ hb h => execWr_decoded (isBusy_eq_false_iff.mpr hb) h

theorem execSetup_accepted (cap : Handle) (hb : isBusy s.eng = false) :
    execSetup cap s = .next (setupContext cap (clearErr s)) := by
  rw [execSetup, hb]
  rfl

/-- Settles O22: `SETUP` makes no check. -/
theorem setupStoresTheHandleUnchecked : Obligations.SetupStoresTheHandleUnchecked :=
  fun _ cap hb => execSetup_accepted cap (isBusy_eq_false_iff.mpr hb)

theorem execDigest_accepted (hb : isBusy s.eng = false) : execDigest len s = acceptDigest len (clearErr s) := by
  rw [execDigest, hb]
  rfl

/-- A `DIGEST` that passes every check, with its buffers apart, starts (44_host_commands.md R193). -/
theorem acceptDigest_start (valid : s.eng.ctxValid = true) (cap : s.eng.ctxCap ≠ 0)
    (readable : admitR s.plat s.eng.msgAddr.toNat len.toNat = true)
    (writable : admitW s.plat s.eng.tagAddr.toNat 16 = true)
    (apart : overlaps s.eng.msgAddr.toNat len.toNat s.eng.tagAddr.toNat = false) :
    acceptDigest len s = .next (startDigest len s) := by
  simp only [acceptDigest, valid, cap, readable, writable, apart, Bool.true_eq_false, Bool.false_eq_true, if_false]

/-- Buffers that share no byte do not overlap. -/
theorem overlaps_eq_false {msg n tag : Nat} (h : ∀ j k, j < n → k < 16 → msg + j ≠ tag + k) :
    overlaps msg n tag = false := by
  have hlater := h (tag - msg) (msg - tag)
  simp only [overlaps, Bool.and_eq_false_iff, decide_eq_false_iff_not]
  omega

/-- Settles O23: the checks pass as they do before `ERR` is cleared, and the tag buffer is opened. -/
theorem admittedDigestStarts : Obligations.AdmittedDigestStarts := by
  intro s len hb valid cap readable writable apart
  have hstart : exec (.digest len) s = .next (startDigest len (clearErr s)) :=
    (execDigest_accepted (isBusy_eq_false_iff.mpr hb)).trans
      (acceptDigest_start (s := clearErr s) valid cap readable writable (overlaps_eq_false apart))
  exact ⟨_, hstart, rfl, fun a => mem_openTag⟩

/-! ### Which step changes `STATE` -/

/-- An accepted `DIGEST` leaves `BUSY`, or `ERROR` with the code of the check that failed. -/
theorem acceptDigest_status (h : acceptDigest len s = .next t) :
    t.eng.status = .busy ∨ (t.eng.status = .error ∧ t.eng.err ∈ [.ctx, .cap, .msg, .out]) := by
  unfold acceptDigest at h
  split_ifs at h <;> cases h <;> simp

/-- `STATE` and `ERR` of `e` are what an accepted word `w` leaves (44_host_commands.md R198). -/
def Engine.AfterWord (e : Engine) (w : Word) : Prop :=
  (e.status = .idle ∧ ∃ c, decode (.command w) = .ok (.setup c)) ∨
  (e.status = .busy ∧ ∃ n, decode (.command w) = .ok (.digest n)) ∨
  (e.status = .error ∧
    (((∃ n, decode (.command w) = .ok (.digest n)) ∧ e.err ∈ [.ctx, .cap, .msg, .out]) ∨
     ((∃ d, decode (.command w) = .error d) ∧ e.err = .cmd)))

theorem execWr_afterWord (hb : isBusy s.eng = false) (h : execWr 0 w s = .next t) : t.eng.AfterWord w := by
  cases hd : decodeCommand w with
  | error d =>
    rw [execWr_illegal (isBusy_eq_false_iff.mp hb) hd] at h
    cases h
    exact .inr (.inr ⟨rfl, .inr ⟨⟨d, hd⟩, rfl⟩⟩)
  | ok i =>
    rw [execWr_decoded hb hd] at h
    rcases decodeCommand_ok hd with ⟨c, rfl⟩ | ⟨n, rfl⟩
    · cases (execSetup_accepted c hb).symm.trans h
      exact .inl ⟨rfl, c, hd⟩
    · rcases acceptDigest_status ((execDigest_accepted hb).symm.trans h) with busy | ⟨error, code⟩
      · exact .inr (.inl ⟨busy, n, hd⟩)
      · exact .inr (.inr ⟨error, .inl ⟨⟨n, hd⟩, code⟩⟩)

/-- A host action that changes `STATE` is a reset, or an accepted write to `CMD`. -/
theorem HostEffect.status_change {a : HostAction} (he : HostEffect a s t) (held : isHeld s.eng a = false)
    (hne : t.eng.status ≠ s.eng.status) :
    (t.eng.status = .idle ∧ t.eng.ctxValid = false) ∨
    (s.eng.status ≠ .busy ∧ ∃ w, a = .wr 0 w ∧ t.eng.AfterWord w) := by
  cases he with
  | wr idx d ha hw =>
    rcases execWr_next hw with ⟨rfl, _⟩ | ⟨_, rfl⟩ | ⟨_, rfl⟩ | ⟨_, rfl⟩
    · have hb : isBusy s.eng = false := by simpa [ha, isHeld] using held
      exact .inr ⟨isBusy_eq_false_iff.mp hb, d, ha, execWr_afterWord hb hw⟩
    all_goals exact absurd rfl hne
  | rd idx hr =>
    obtain ⟨opened, rfl, _⟩ := execRd_next hr
    exact absurd rfl hne
  | look e => exact absurd (by simp [e]) hne
  | reset e => exact .inl (by simp [e])
  | store x b _ _ _ _ e => exact absurd (by simp [e]) hne
  | load b n e => exact absurd (by rw [e]) hne

/-- A micro-operation that changes `STATE` is `U_WRITE`, which ends the digest. -/
theorem microOp_status_change {p : Phase} (hi : phaseInstr p = some i) (he : exec i s = .next t)
    (hne : t.eng.status ≠ s.eng.status) : p = .write ∧ t.eng.status = .done := by
  obtain rfl : i = .uWrite := by
    by_contra hw
    exact hne (microOp_status hi hw he)
  obtain ⟨_, rfl⟩ := execUWrite_next he
  exact ⟨phase_of_uWrite hi, rfl⟩

/-- Settles O51, by the agent that moved; the adapter and the platform leave the engine alone. -/
theorem stateChangesOnlyAsTabled : Obligations.StateChangesOnlyAsTabled := by
  intro s t hinv hstep hne
  obtain ⟨turns, hmove⟩ := step_next hstep
  cases hmove with
  | pass e => exact absurd (by rw [e]) hne
  | engine i hi _ he =>
    obtain ⟨phase, done⟩ := microOp_status_change hi he hne
    have busy : s.eng.status = .busy := hinv.busy_iff.mpr fun idle => nomatch phase.symm.trans idle
    exact .inr (.inl ⟨done, busy, phase⟩)
  | adapter r _ _ e => exact absurd (by simp [e]) hne
  | host a rest hh held he =>
    rcases he.status_change held hne with reset | ⟨idle, w, rfl, after⟩
    · exact .inl reset
    · exact .inr (.inr ⟨idle, w, rest, hh, after⟩)
  | platform a rest _ e =>
    subst e
    cases a <;> exact absurd rfl hne
  | reset e => exact .inl (by simp [e])

/-! ### Equal messages -/

/-- Settles O60: both runs take the steps that the length asks for, each tag is `CMAC`, and `CMAC` reads the bytes of the
message alone. -/
theorem equalMessagesGetEqualTags : Obligations.EqualMessagesGetEqualTags := by
  intro s s' c h h' hc hc' hlen hmsg
  obtain ⟨t, hrun, done, _, _, _, _, _, tag, _⟩ := anAcceptedDigestEndsWithItsTag s c h hc
  obtain ⟨t', hrun', done', _, _, _, _, _, tag', _⟩ := anAcceptedDigestEndsWithItsTag s' c h' hc'
  rw [hlen] at hrun' tag'
  have htag : t'.bytesAt s'.eng.tagBase.toNat 16 = t.bytesAt s.eng.tagBase.toNat 16 := by
    rw [tag', tag, cmac_congr hmsg]
  exact ⟨t, t', _, hrun, hrun', done, done', htag⟩

end Sys2Proof.Machine

/-! Exceptions (60_exceptions.md): the error of a command and what error entry changes, and a memory access that the platform
does not serve. -/

namespace Sys2Proof.Machine

variable {s t : State} {i : Instr} {len : BitVec 16}

/-! ### The first error in order -/

theorem raise_clearErr (c : ErrCode) (s : State) : raise c (clearErr s) = raise c s := rfl

theorem acceptDigest_ctx (invalid : s.eng.ctxValid = false) : acceptDigest len s = .next (raise .ctx s) :=
  if_pos invalid

theorem acceptDigest_cap (valid : s.eng.ctxValid = true) (cap : s.eng.ctxCap = 0) :
    acceptDigest len s = .next (raise .cap s) := by
  rw [acceptDigest, if_neg (ne_false_of_eq_true valid), if_pos cap]

theorem acceptDigest_msg (valid : s.eng.ctxValid = true) (cap : s.eng.ctxCap ≠ 0)
    (unreadable : admitR s.plat s.eng.msgAddr.toNat len.toNat = false) :
    acceptDigest len s = .next (raise .msg s) := by
  rw [acceptDigest, if_neg (ne_false_of_eq_true valid), if_neg cap, if_pos unreadable]

theorem acceptDigest_out (valid : s.eng.ctxValid = true) (cap : s.eng.ctxCap ≠ 0)
    (readable : admitR s.plat s.eng.msgAddr.toNat len.toNat = true)
    (unwritable : admitW s.plat s.eng.tagAddr.toNat 16 = false) :
    acceptDigest len s = .next (raise .out s) := by
  rw [acceptDigest, if_neg (ne_false_of_eq_true valid), if_neg cap, if_neg (ne_false_of_eq_true readable),
    if_pos unwritable]

/-- Settles O24: the checks read nothing that clearing `ERR` changes, and error entry writes `ERR` after that. -/
theorem theFirstErrorInOrderIsReported : Obligations.TheFirstErrorInOrderIsReported := by
  intro s hb
  refine ⟨fun w illegal => ?_, fun len => ?_⟩
  · cases hd : decodeCommand w with
    | ok i => exact absurd hd (illegal i)
    | error e => exact execWr_illegal hb hd
  · have accepted : exec (.digest len) s = acceptDigest len (clearErr s) :=
      execDigest_accepted (isBusy_eq_false_iff.mpr hb)
    rw [accepted]
    exact ⟨acceptDigest_ctx (s := clearErr s), acceptDigest_cap (s := clearErr s), acceptDigest_msg (s := clearErr s),
      acceptDigest_out (s := clearErr s)⟩

/-! ### Error entry -/

/-- A command that brings `STATE` to `ERROR` is error entry and nothing else. -/
theorem CommandEffect.error_entry (h : CommandEffect s t) (hs : s.eng.status ≠ .error) (ht : t.eng.status = .error) :
    ∃ c, c ≠ .none ∧ t = raise c s := by
  cases h with
  | held _ e => exact absurd (e ▸ ht) hs
  | setup _ cap e => simp [e] at ht
  | error _ c hc e => exact ⟨c, hc, e.trans (raise_clearErr c s)⟩
  | digest _ len _ _ _ _ e => simp [e] at ht

/-- No micro-operation raises an error (60_exceptions.md R214). -/
theorem microOp_not_error {p : Phase} (hi : phaseInstr p = some i) (h : exec i s = .next t)
    (hs : s.eng.status ≠ .error) : t.eng.status ≠ .error := by
  intro ht
  obtain ⟨_, done⟩ := microOp_status_change hi h (ht ▸ hs.symm)
  simp [ht] at done

/-- Settles O26: only a command's check raises an error. -/
theorem errorEntryChangesNothingElse : Obligations.ErrorEntryChangesNothingElse := by
  intro i s t h hs ht
  have command (hc : CommandEffect s t) := hc.error_entry hs ht
  have noMicroOp (p : Phase) (hi : phaseInstr p = some i) : False := microOp_not_error hi h hs ht
  cases i with
  | setup cap => exact command (execSetup_effect h)
  | digest len => exact command (execDigest_effect h)
  | wr idx data =>
    rcases execWr_next h with ⟨_, hc⟩ | ⟨_, rfl⟩ | ⟨_, rfl⟩ | ⟨_, rfl⟩
    · exact command hc
    all_goals exact absurd ht hs
  | rd idx =>
    obtain ⟨opened, rfl, _⟩ := execRd_next h
    exact absurd ht hs
  | uSubkeyL => exact (noMicroOp .subkeyL rfl).elim
  | uSubkeyK1 => exact (noMicroOp .subkeyK1 rfl).elim
  | uSubkeyK2 => exact (noMicroOp .subkeyK2 rfl).elim
  | uCount => exact (noMicroOp .count rfl).elim
  | uLast => exact (noMicroOp .last rfl).elim
  | uInit => exact (noMicroOp .init rfl).elim
  | uChain => exact (noMicroOp .chain rfl).elim
  | uFinal => exact (noMicroOp .final rfl).elim
  | uWrite => exact (noMicroOp .write rfl).elim

/-! ### A memory access that is not served -/

theorem memRead_unserved {a n : Nat} (h : admitR s.plat a n = false) : memRead s a n = none := by
  simp [memRead, h]

theorem memWrite_unserved {a : Nat} {bs : List Byte} (h : admitW s.plat a bs.length = false) :
    memWrite s a bs = none := by
  simp [memWrite, h]

theorem exec_uLast_unserved (hn : s.eng.n ≠ 0) (h : admitR s.plat (eaLast s.eng) s.eng.r.toNat = false) :
    exec .uLast s = .fault .memoryUnserved := by
  rw [exec, execULast, if_neg hn, memRead_unserved h]

theorem exec_uChain_unserved (pend : s.eng.encPend = false) (hlt : s.eng.i.toNat + 1 < s.eng.n.toNat)
    (h : admitR s.plat (eaBlock s.eng) 16 = false) : exec .uChain s = .fault .memoryUnserved := by
  rw [exec, execUChain, if_neg (ne_true_of_eq_false pend), if_neg hlt.ne, if_pos hlt, memRead_unserved h]

theorem exec_uWrite_unserved (h : admitW s.plat (eaTag s.eng) 16 = false) :
    exec .uWrite s = .fault .memoryUnserved := by
  rw [← length_blockBytes s.eng.x] at h
  rw [exec, execUWrite, memWrite_unserved h]

/-- An engine outside a transaction whose next step makes an access that is not served: the last chunk, a block of the
chain, or the tag. -/
def State.Unserved (s : State) : Prop :=
  (s.eng.phase = .last ∧ admitR s.plat (eaLast s.eng) s.eng.r.toNat = false) ∨
  (s.eng.phase = .chain ∧ s.eng.i.toNat + 1 < s.eng.n.toNat ∧ admitR s.plat (eaBlock s.eng) 16 = false) ∨
  (s.eng.phase = .write ∧ admitW s.plat (eaTag s.eng) 16 = false)

theorem State.Unserved.phase_ne_idle (h : s.Unserved) : s.eng.phase ≠ .idle := by
  rcases h with ⟨hp, _⟩ | ⟨hp, _⟩ | ⟨hp, _⟩ <;> simp [hp]

/-- The machine does not give the engine the step. -/
theorem State.Unserved.engineCan (h : s.Unserved) (pend : s.eng.encPend = false) : engineCan s = false := by
  have unserved : accessServed s = false := by
    rcases h with ⟨hp, h⟩ | ⟨hp, hlt, h⟩ | ⟨hp, h⟩
    · simp only [accessServed, hp, h]
    · simp [accessServed, hp, h, pend, hlt]
    · simp only [accessServed, hp, h]
  rw [Machine.engineCan, unserved, Bool.and_false]

/-! ### Nobody but the host -/

theorem adapterCan_without_request (hq : s.encReq = none) (ho : s.oracle = []) : adapterCan s = false := by
  simp [adapterCan, adapterAnswer, hq, ho]

/-- In the default order the host moves when the engine and the adapter cannot. -/
theorem step_of_host {a : HostAction} {rest : List HostAction} (ht : s.turns = []) (engine : engineCan s = false)
    (adapter : adapterCan s = false) (hh : s.host = a :: rest) (held : isHeld s.eng a = false) :
    step s = hostPerform a { s with host := hostRest s.eng a rest } := by
  have host : hostCan s = true := by simp [hostCan, hh, held]
  have hstep : step s = act .host s := by simp [step, stepOf, ht, freeRun, canMove, engine, adapter, host]
  rw [hstep]
  simp only [act, hostMove, hh]

/-- With nobody to move, an engine that awaits no answer is stuck at its memory access (93_implementation_defined.md U4). -/
theorem step_of_stuck (ht : s.turns = []) (engine : engineCan s = false) (adapter : adapterCan s = false)
    (hh : s.host = []) (hacts : s.platActs = []) (running : s.eng.phase ≠ .idle) (pend : s.eng.encPend = false) :
    step s = .fault .memoryUnserved := by
  have host : hostCan s = false := by simp [hostCan, hh]
  simp [step, stepOf, ht, freeRun, canMove, engine, adapter, host, hacts, running, pend]

/-- Settles O37: the three micro-operations have no step, so the engine cannot move, and what happens is up to the others. -/
theorem unservedAccessesStopTheEngine : Obligations.UnservedAccessesStopTheEngine := by
  refine fun s => ⟨exec_uLast_unserved, exec_uChain_unserved, exec_uWrite_unserved, fun pend h => ?_⟩
  have unserved : s.Unserved := h
  have engine := unserved.engineCan pend
  refine ⟨fun turns ht => ?_, fun ht hq ho => ?_⟩
  · rw [step_eq_takeTurn ht]
    exact takeTurn_of_not_canMove (g := .engine) (s := { s with turns := turns }) engine
  · have adapter := adapterCan_without_request hq ho
    exact ⟨fun rest hh => ⟨_, step_of_host ht engine adapter hh rfl, rfl, rfl⟩,
      fun hh hacts => step_of_stuck ht engine adapter hh hacts unserved.phase_ne_idle pend⟩

end Sys2Proof.Machine

/-! Reset and hazards (70_reset_and_hazards.md): what the reset input does to the machine, what becomes of a command that it
meets, when an idle engine waits, and the refusal of a `DIGEST` whose buffers overlap. -/

namespace Sys2Proof.Machine

variable {s : State} {w : Word} {rest : List HostAction} {turns : List Agent} {len : BitVec 16}

/-! ### Overlapping buffers -/

/-- Buffers that share a byte overlap. -/
theorem overlaps_of_shared {msg n tag j k : Nat} (hj : j < n) (hk : k < 16) (shared : msg + j = tag + k) :
    overlaps msg n tag = true := by
  simp only [overlaps, Bool.and_eq_true, decide_eq_true_eq]
  omega

/-- The overlap is looked at when every check has passed. -/
theorem acceptDigest_overlap (valid : s.eng.ctxValid = true) (cap : s.eng.ctxCap ≠ 0)
    (readable : admitR s.plat s.eng.msgAddr.toNat len.toNat = true)
    (writable : admitW s.plat s.eng.tagAddr.toNat 16 = true)
    (shared : overlaps s.eng.msgAddr.toNat len.toNat s.eng.tagAddr.toNat = true) :
    acceptDigest len s = .refused .overlappingBuffers := by
  rw [acceptDigest, if_neg (ne_false_of_eq_true valid), if_neg cap, if_neg (ne_false_of_eq_true readable),
    if_neg (ne_false_of_eq_true writable), if_pos shared]

/-- Settles O25. -/
theorem overlappingDigestIsRefused : Obligations.OverlappingDigestIsRefused := by
  intro s len hb valid cap readable writable ⟨j, k, hj, hk, shared⟩
  calc exec (.digest len) s
    _ = acceptDigest len (clearErr s) := execDigest_accepted (isBusy_eq_false_iff.mpr hb)
    _ = .refused .overlappingBuffers :=
      acceptDigest_overlap (s := clearErr s) valid cap readable writable (overlaps_of_shared hj hk shared)

/-! ### The reset input -/

/-- Reset may fire in every state (R240). -/
theorem step_of_rstTurn (ht : s.turns = .rst :: turns) : step s = .next (resetPulse { s with turns := turns }) :=
  step_of_turn ht rfl

/-- Settles O43: the registers by R241, the bytes by `byteAt_resetPulse`. -/
theorem resetInputRestoresTheEngine : Obligations.ResetInputRestoresTheEngine := by
  intro s turns ht
  refine ⟨_, step_of_rstTurn ht, rfl, rfl, rfl, rfl, rfl, rfl, rfl, rfl, rfl, rfl, rfl, rfl, rfl, rfl, fun a ha => ?_⟩
  have outside : s.eng.status = .busy → a < s.eng.tagBase.toNat ∨ s.eng.tagBase.toNat + 16 ≤ a := by
    intro busy
    simp only [busy, true_and, not_and_or, not_le, not_lt] at ha
    exact ha
  exact byteAt_resetPulse (s := { s with turns := turns }) outside

/-! ### A command held when reset fires -/

/-- At the host's turn an engine that is not busy performs the write to `CMD` on its port (44_host_commands.md R191). -/
theorem step_of_commandWrite (ht : s.turns = .host :: turns) (hh : s.host = .wr 0 w :: rest)
    (hb : isBusy s.eng = false) : step s = exec (.wr 0 w) { s with host := rest, turns := turns } := by
  have held : isHeld s.eng (.wr 0 w) = false := by simp [isHeld, hb]
  have decodes : decode (.port (1#1 ++ 0#3) w) = .ok (.wr 0 w) := congrArg Except.ok (decodePort_wr 0 w)
  have taken : hostRest s.eng (.wr 0 w) rest = rest := if_neg (fun h => nomatch h.1)
  rw [aHostStepRunsTheDecodedTransaction s _ _ _ rest turns ht hh held rfl decodes, taken]

/-- A `DIGEST` written without a context reports `E_CTX` (60_exceptions.md R213). -/
theorem exec_digestWrite_ctx (hb : isBusy s.eng = false) (hw : decode (.command w) = .ok (.digest len))
    (invalid : s.eng.ctxValid = false) : exec (.wr 0 w) s = .next (raise .ctx s) :=
  calc exec (.wr 0 w) s
    _ = exec (.digest len) s := execWr_decoded hb hw
    _ = acceptDigest len (clearErr s) := execDigest_accepted hb
    _ = .next (raise .ctx s) := acceptDigest_ctx (s := clearErr s) invalid

/-- Settles O44: reset leaves the write on the port and the engine idle, with no context. -/
theorem aHeldDigestMeetsTheResetState : Obligations.AHeldDigestMeetsTheResetState := by
  intro s w rest turns _ hh ht
  let t := resetPulse { s with turns := .host :: turns }
  have performed : step t = exec (.wr 0 w) { t with host := rest, turns := turns } :=
    step_of_commandWrite (s := t) rfl hh rfl
  refine ⟨t, step_of_rstTurn ht, rfl, rfl, rfl, performed, fun len hw => ?_⟩
  rw [performed]
  exact exec_digestWrite_ctx (s := { t with host := rest, turns := turns }) rfl hw rfl

/-! ### An idle engine -/

theorem engineCan_of_idle (idle : s.eng.phase = .idle) : engineCan s = false := by
  simp [engineCan, idle]

/-- Settles O47: none of the four agents of the default order can move. -/
theorem anIdleEngineWaitsForACommand : Obligations.AnIdleEngineWaitsForACommand := by
  intro s idle ht hh ho hq hacts
  have engine := engineCan_of_idle idle
  have adapter := adapterCan_without_request hq ho
  have host : hostCan s = false := by simp [hostCan, hh]
  simp [step, stepOf, ht, freeRun, canMove, engine, adapter, host, hacts, idle]

end Sys2Proof.Machine
